-- ==== Sys2Proof/Word.lean ====
section
/-!
DEFINITION. The words of the block and the events of its pins and buses (spec/00_scope.md R10, R11). Bus addresses, which the
block does no arithmetic on (R51), and page selectors (R13) are plain natural numbers.
-/

namespace Sys2Proof

/-- An 8-bit value (`u8`, R10). -/
abbrev Byte := BitVec 8

/-- A 16-bit value: a request word (R71) or the content of a port register (R35, R53). -/
abbrev Word := BitVec 16

/-- One event of a pin program (R11), which is exactly one bus access (R55) or one access of `IE` (R37).
A bus value is a natural number below `256 ^ n`. -/
inductive Event where
  /-- `Wr(addr, n, v)`: one write of the n-byte value `v`. -/
  | wr (addr : Nat) (n : Nat) (v : Nat)
  /-- `Rd(addr, n, v)`: one read of n bytes, which answered `v`. -/
  | rd (addr : Nat) (n : Nat) (v : Nat)
  /-- `IeRd(b)`: the interrupt-enable state was read as `b`. -/
  | ieRd (b : Bool)
  /-- `IeWr(b)`: the interrupt-enable state was set to `b`. -/
  | ieWr (b : Bool)
deriving DecidableEq, Repr

end Sys2Proof
end

