-- ==== Sys2Proof/Config.lean ====
section
/-!
DEFINITION. The configuration of R8 as plain data, and the free values of the model: opaque constants of which Lean
can prove nothing, one for each OPEN parameter and one for the oracle of R40.
-/

namespace Sys2Proof

/-- One configured register write (address, width in bytes, value): an entry of `PAGE_SEQ(p)`, or `RTC_EN` (R8). -/
structure BusWrite where
  addr : Nat
  width : Nat
  value : Nat
deriving DecidableEq, Repr, Inhabited

/-- The parameters of R8. `N_FLASH` is the length of `flashPages`, whose entry i is `FLASH_PAGE(i)`. `PAGE_SEQ` and
`PROBE_ADDR` are tables by page selector (Machine/Params.lean reads them). `IE_LOC` has no field: `IE` is the abstract
Boolean of R37 (log 22). `PORT_W` and `CW` are fixed by R8 and are constants below. -/
structure Config where
  /-- `K_CMD`: knock writes per bit slot of a command shift-out. -/
  kCmd : Nat
  /-- `K_WRITE`: knock writes per bit slot of a data shift-out. -/
  kWrite : Nat
  /-- `K_READ`: knock writes per bit slot of a data shift-in. -/
  kRead : Nat
  /-- `GPIO_DATA_ADDR`. -/
  gpioData : Nat
  /-- `GPIO_DIR_ADDR`. -/
  gpioDir : Nat
  /-- `GPIO_CTRL_ADDR`. -/
  gpioCtrl : Nat
  /-- `CHECKSUM_ADDR`. -/
  checksumAddr : Nat
  /-- `PROBE_ADDR(p)` where it is not the default `CHECKSUM_ADDR`. -/
  probeAddrs : List (Nat × Nat)
  /-- `PAGE_SEQ(p)`; a selector not listed has the empty sequence. -/
  pageSeqs : List (Nat × List BusWrite)
  /-- `BOOT_PAGE`. -/
  bootPage : Nat
  /-- `PSRAM_PAGE`. -/
  psramPage : Nat
  /-- `FLASH_PAGE(0)` to `FLASH_PAGE(N_FLASH - 1)`. -/
  flashPages : List Nat
  /-- `KERNEL_PAGE`. -/
  kernelPage : Nat
  /-- `RTC_EN`: the write that enables the RTC-passthrough clock. -/
  rtcEn : BusWrite
deriving DecidableEq, Repr

/-- `PORT_W`: a port register access is 2 bytes wide (R8, R53). -/
def Config.portW : Nat := 2

/-- `CW`: a checksum read is 1 byte wide (R8, R9). -/
def Config.cw : Nat := 1

/-- The oracle of R40: the value a read answers, from the trace so far, the address, the width and a free choice.
Nothing constrains it (log 5). -/
opaque Config.oracle : List Event → Nat → Nat → Nat → Word

/-- The OPEN addresses of DATA, DIRECTION and CONTROL (R8, D13; log 6). -/
opaque Config.openPorts : Nat × Nat × Nat

/-- The OPEN `CHECKSUM_ADDR` (R8, D19; log 6). -/
opaque Config.openChecksumAddr : Nat

/-- The OPEN `PAGE_SEQ` (R8, D19; log 6). -/
opaque Config.openPageSeqs : List (Nat × List BusWrite)

/-- The OPEN `BOOT_PAGE` (R8, D19; log 6). -/
opaque Config.openBootPage : Nat

/-- The OPEN `PSRAM_PAGE` (R8, D19; log 6). -/
opaque Config.openPsramPage : Nat

/-- The OPEN `FLASH_PAGE(i)` (R8, D19; log 6). -/
opaque Config.openFlashPage : Nat → Nat

/-- The OPEN `KERNEL_PAGE` (R8, D19; log 6). -/
opaque Config.openKernelPage : Nat

/-- The OPEN `RTC_EN` (R8, D23; log 6). -/
opaque Config.openRtcEn : BusWrite

end Sys2Proof
end

