-- ==== Sys2Proof/Machine/Params.lean ====
section
/-!
DEFINITION. How the configuration is read (R8), when it is well formed (R9, R54, R170), and the configuration of
`State.reset`: the spec's defaults and the opaque OPEN values, kept within the limits of R9 (log 6).
-/

namespace Sys2Proof

/-- `PAGE_SEQ(p)` (R8, R170). -/
def Config.pageSeq (c : Config) (p : Nat) : List BusWrite := (c.pageSeqs.lookup p).getD []

/-- `PROBE_ADDR(p)`, by default `CHECKSUM_ADDR` (R8). -/
def Config.probeAddr (c : Config) (p : Nat) : Nat := (c.probeAddrs.lookup p).getD c.checksumAddr

/-- The knock range of R9: 2 to 5. -/
def Config.knocksOk (k : Nat) : Bool := 2 ≤ k && k ≤ 5

/-- The three port addresses are distinct multiples of `PORT_W` (R9). -/
def Config.portsOk (d r k : Nat) : Bool :=
  d != r && d != k && r != k && d % portW == 0 && r % portW == 0 && k % portW == 0

/-- A configured register write carries a value of its width to a naturally aligned address that is no port register's
(R11, R54, R170; log 24). -/
def Config.writeOk (d r k : Nat) (w : BusWrite) : Bool :=
  0 < w.width && w.addr % w.width == 0 && w.value < 256 ^ w.width && w.addr != d && w.addr != r && w.addr != k

/-- A well-formed configuration (R9, with R54 and R170; log 24). -/
def Config.wf (c : Config) : Bool :=
  knocksOk c.kCmd && knocksOk c.kWrite && knocksOk c.kRead && c.flashPages.length ≤ 512 &&
    portsOk c.gpioData c.gpioDir c.gpioCtrl &&
    c.pageSeqs.all (fun e => e.2.all (writeOk c.gpioData c.gpioDir c.gpioCtrl)) &&
    writeOk c.gpioData c.gpioDir c.gpioCtrl c.rtcEn

/-- The OPEN port addresses, every distinct and aligned triple admitted and no other (log 6). -/
def Config.resetPorts : Nat × Nat × Nat :=
  if portsOk openPorts.1 openPorts.2.1 openPorts.2.2 then openPorts else (0, 2, 4)

/-- The writes of a list that R9 and R170 admit. -/
def Config.admitted (ports : Nat × Nat × Nat) (ws : List BusWrite) : List BusWrite :=
  ws.filter (writeOk ports.1 ports.2.1 ports.2.2)

/-- The OPEN `RTC_EN`, every admitted write admitted and no other (log 6). -/
def Config.resetRtcEn (ports : Nat × Nat × Nat) : BusWrite :=
  if writeOk ports.1 ports.2.1 ports.2.2 openRtcEn then openRtcEn
  else ⟨ports.1 + ports.2.1 + ports.2.2 + 1, 1, 0⟩

/-- The configuration of `State.reset`: 3 knocks in each context, 512 flash pages and `PROBE_ADDR = CHECKSUM_ADDR` are the
spec's defaults (R8); every OPEN parameter is an opaque value of which nothing is known but R9 (log 6). -/
def Config.atReset : Config where
  kCmd := 3
  kWrite := 3
  kRead := 3
  gpioData := resetPorts.1
  gpioDir := resetPorts.2.1
  gpioCtrl := resetPorts.2.2
  checksumAddr := openChecksumAddr
  probeAddrs := []
  pageSeqs := openPageSeqs.map fun e => (e.1, admitted resetPorts e.2)
  bootPage := openBootPage
  psramPage := openPsramPage
  flashPages := (List.range 512).map openFlashPage
  kernelPage := openKernelPage
  rtcEn := resetRtcEn resetPorts

end Sys2Proof
end

