-- ==== Sys2Proof/Syntax.lean ====
section
/-!
DEFINITION. The two encodings as the host presents them (R70 to R72, R74), the eleven operations, the sixteen wire
command bytes and the refused words, one constructor of `Instr` for each row of spec/opcode_table.json.
-/

namespace Sys2Proof

/-- What the host presents to the block: a request word with the field bytes that travel with it (R71, R72), or a wire
command byte (R74; log 1). -/
inductive Presented where
  | hostWord (word : Word) (fields : List Byte)
  | wireByte (c : Byte)
deriving DecidableEq, Repr

/-- Why a presented encoding is not well formed (R78); the spec's one reason for all of them is `RefusedEncoding`. -/
inductive Reject where
  /-- `OP` is 0x0 or 0xC to 0xF. -/
  | reservedOp
  /-- `MBZ` is not 0. -/
  | nonzeroMbz
  /-- An `IMM8` bit that the operation does not use is not 0. -/
  | unusedImmediate
  /-- The field bytes are not exactly those the operation carries. -/
  | fieldCount
  /-- A wire byte outside the layout of R74. -/
  | wireLayout
deriving DecidableEq, Repr

/-- The seven field values of WRITE_DATETIME, binary, in the order `F[0..6]` (R72). -/
structure DateTimeFields where
  year : Byte
  month : Byte
  day : Byte
  dayOfWeek : Byte
  hour : Byte
  minute : Byte
  second : Byte
deriving DecidableEq, Repr

/-- The request register `REQ` (R23): operation code, immediate, and the field bytes (none but for WRITE_DATETIME). -/
structure Req where
  op : BitVec 4
  imm8 : Byte
  fields : List Byte
deriving DecidableEq, Repr

/-- The instructions: one constructor per row of spec/opcode_table.json. -/
inductive Instr where
  /-- SEND_CMD (R107). -/
  | sendCmd (c : Byte)
  /-- READ_BYTE (R111). -/
  | readByte
  /-- WRITE_BYTE (R109). -/
  | writeByte (v : Byte)
  /-- READ_STATUS (R131). -/
  | readStatus
  /-- WRITE_STATUS (R132). -/
  | writeStatus (v : Byte)
  /-- WRITE_DATETIME (R133): the flags `MODE12` and `PM` and the field vector. -/
  | writeDatetime (mode12 pm : Bool) (f : DateTimeFields)
  /-- RESET_CHIP (R135). -/
  | resetChip
  /-- TO_BCD (R151). -/
  | toBcd (n : Byte)
  /-- FROM_BCD (R152). -/
  | fromBcd (b : Byte)
  /-- DETECT (R172). -/
  | detect
  /-- ENABLE_ALT (R177). -/
  | enableAlt
  /-- The wire command byte 0x60, `MASK_WRITE(0)` (R75). -/
  | cmdMaskWrite0
  /-- The wire command byte 0x61, `MASK_READ(0)` (R75). -/
  | cmdMaskRead0
  /-- The wire command byte 0x62, `MASK_WRITE(1)` (R75). -/
  | cmdMaskWrite1
  /-- The wire command byte 0x63, `MASK_READ(1)` (R75). -/
  | cmdMaskRead1
  /-- The wire command byte 0x64, `MASK_WRITE(2)` (R75). -/
  | cmdMaskWrite2
  /-- The wire command byte 0x65, `MASK_READ(2)` (R75). -/
  | cmdMaskRead2
  /-- The wire command byte 0x66, `MASK_WRITE(3)` (R74). -/
  | cmdMaskWrite3
  /-- The wire command byte 0x67, `MASK_READ(3)` (R74). -/
  | cmdMaskRead3
  /-- The wire command byte 0x68, `MASK_WRITE(4)` (R74). -/
  | cmdMaskWrite4
  /-- The wire command byte 0x69, `MASK_READ(4)` (R74). -/
  | cmdMaskRead4
  /-- The wire command byte 0x6A, `MASK_WRITE(5)` (R74). -/
  | cmdMaskWrite5
  /-- The wire command byte 0x6B, `MASK_READ(5)` (R74). -/
  | cmdMaskRead5
  /-- The wire command byte 0x6C, `MASK_WRITE(6)` (R74). -/
  | cmdMaskWrite6
  /-- The wire command byte 0x6D, `MASK_READ(6)` (R74). -/
  | cmdMaskRead6
  /-- The wire command byte 0x6E, `MASK_WRITE(7)` (R74). -/
  | cmdMaskWrite7
  /-- The wire command byte 0x6F, `MASK_READ(7)` (R74). -/
  | cmdMaskRead7
  /-- The table's row REFUSED: an encoding that is not well formed, with why (R79). -/
  | refused (why : Reject) (p : Presented)
deriving DecidableEq, Repr

end Sys2Proof
end

