-- ==== Sys2Proof/Machine/State.lean ====
section
/-!
DEFINITION. The state of the block and of the external registers the spec gives it (spec/10_state.md), the host's moves,
the reasons a step can stop, and the state right after reset (R44).
-/

namespace Sys2Proof.Machine

/-- `SEQ_STATE` (R22). -/
inductive SeqState where
  | idle
  | busy
deriving DecidableEq, Repr

/-- `RESULT`: an 8-bit value or a Boolean (R28). -/
inductive Result where
  | byte (v : Byte)
  | flag (b : Bool)
deriving DecidableEq, Repr

/-- The fault codes of R201. -/
inductive FaultCode where
  /-- `F_BCD_RANGE`: a value to encode is above 99. -/
  | bcdRange
  /-- `F_BCD_DIGIT`: a nibble of the byte is above 9. -/
  | bcdDigit
deriving DecidableEq, Repr

/-- What `FAULT` records (R33, R201): the code, the operation code, the offending value, and for WRITE_DATETIME the index
of the first offending field. -/
structure FaultMark where
  code : FaultCode
  op : BitVec 4
  value : Byte
  index : Option Nat
deriving DecidableEq, Repr

/-- The one reason of the refusal mark (R79, R203). -/
inductive RefusalMark where
  | refusedEncoding
deriving DecidableEq, Repr

/-- What the host gets back for a request (R80, R202): nothing but completion, a result, or a fault. -/
inductive Completion where
  | done
  | result (r : Result)
  | fault (m : FaultMark)
deriving DecidableEq, Repr

/-- One (request, result or fault) pair of the observation (R41). -/
structure Delivery where
  req : Req
  outcome : Completion
deriving DecidableEq, Repr

/-- The paging controller's modes (R38, R179). -/
inductive PagingMode where
  | normal
  | kernel
deriving DecidableEq, Repr

/-- A move of the host or of the world around the block (R20, R220, R234; log 3, 16, 22). DESIGN CHOICE: there is none for
the host's own accesses to the port registers, the paging registers or the ROM between operations, which R59 leaves open
with its "if any" (log 28). -/
inductive HostMove where
  /-- The synchronous call of an operation, in the view of R34: the whole operation is one step. -/
  | call (p : Presented)
  /-- The same request in the view of R20: accepted in one step, then run one event a step. -/
  | present (p : Presented)
  /-- The host sets the external interrupt-enable state between operations (R37, R207). -/
  | setIe (b : Bool)
  /-- A reset of the host (R220): taken at once when Idle, and inside an operation as soon as `SEQ_PC` is at least `after`. -/
  | reset (after : Nat)
deriving DecidableEq, Repr

/-- The state (R22 to R41). The last four fields are the model's own. -/
structure State where
  /-- `SEQ_STATE` (R22). -/
  seqState : SeqState
  /-- `REQ` (R23). -/
  req : Req
  /-- `SEQ_PC` (R24). -/
  seqPc : Nat
  /-- `TXSR` (R25). -/
  txsr : Byte
  /-- `RXACC` (R26). -/
  rxacc : BitVec 9
  /-- `BITCNT`, 0 to 8 (R27; log 12). -/
  bitcnt : Nat
  /-- `KCNT`, 0 to 5 (R27; log 12). -/
  kcnt : Nat
  /-- `RESULT` (R28). -/
  result : Result
  /-- `REF`, `8 * CW` bits (R29). -/
  refSum : Byte
  /-- `MATCH` (R30). -/
  matched : Bool
  /-- `PAGE_IDX`, 0 to 512 (R31). -/
  pageIdx : Nat
  /-- `IE_SAVED` (R32). -/
  ieSaved : Bool
  /-- `FAULT`, sticky (R33, R202). -/
  fault : Option FaultMark
  /-- The refusal mark, kept for the whole run (R203). -/
  refusal : Option RefusalMark
  /-- The DATA port register as last written (R35, R36). -/
  data : Word
  /-- The DIRECTION port register as last written (R35, R36). -/
  direction : Word
  /-- The CONTROL port register as last written (R35, R36). -/
  control : Word
  /-- The external interrupt-enable state `IE` (R37). -/
  ie : Bool
  /-- The page last commanded to the paging controller (R38, R178; log 10). -/
  page : Nat
  /-- The mode commanded to the paging controller (R38, R179, R209; log 10). -/
  pagingMode : PagingMode
  /-- The RTC-passthrough enable as commanded (R38, R177; log 10). -/
  passthrough : Bool
  /-- The bytes last written at the paging registers (R38, R50), in the canonical form of `Memory.wf` (log 11). -/
  mem : List Host.Cell
  /-- The event trace, oldest first (R41). -/
  trace : List Event
  /-- What was delivered to the host, oldest first (R41, R80). -/
  delivered : List Delivery
  /-- The model's own: the host's moves still to come (log 3). -/
  inbox : List HostMove
  /-- The model's own: what the oracle of R40 answers next (log 5). -/
  answers : List Word
  /-- The model's own: how many reads were answered, the free choice of R40 (log 5). -/
  draws : Nat
  /-- The model's own: the configuration of R8, which no step changes (R21; log 6). -/
  cfg : Config
deriving DecidableEq, Repr

/-- Where a step stops the machine. -/
inductive Fault where
  /-- Raised by `tick` alone: `SEQ_STATE` is Busy and `REQ` holds no request the block accepts. R22 and R80 set Busy only
  with an accepted request, so no run reaches it. Safe: the model stops (log 15). -/
  | busyWithoutRequest
deriving DecidableEq, Repr

/-- Where an instruction has no meaning. -/
inductive Refusal where
  /-- Raised by an arm of `exec` whose instruction has no meaning yet; no arm does. Safe: the model stops. -/
  | notModelled (mnemonic : String)
  /-- Raised by a meaning asked for while `SEQ_STATE` is Busy, when the block accepts no request (R22, R206). `step` never
  asks for one then. Safe: the model stops (log 14). -/
  | busy
deriving DecidableEq, Repr

/-- The machine right after reset at the start of a run, for a configuration (R44): Idle, `FAULT` clear, trace empty, and
the values of log 7 to log 11 for what R44 calls unwritten or unspecified. -/
def State.boot (c : Config) : State where
  seqState := .idle
  req := ⟨0, 0, []⟩
  seqPc := 0
  txsr := 0
  rxacc := 0
  bitcnt := 0
  kcnt := 0
  result := .byte 0
  refSum := 0
  matched := false
  pageIdx := 0
  ieSaved := false
  fault := none
  refusal := none
  data := 0
  direction := 0
  control := 0
  ie := true
  page := 0
  pagingMode := .normal
  passthrough := false
  mem := []
  trace := []
  delivered := []
  inbox := []
  answers := []
  draws := 0
  cfg := c

/-- The machine right after reset (R44, R221). -/
def State.reset : State := State.boot Config.atReset

end Sys2Proof.Machine
end

