-- ==== Sys2Proof/Machine/Flags.lean ====
section
/-!
DEFINITION. The flag-like state of the block (R42): how `MATCH` is computed, and how the sticky marks `FAULT` and the
refusal mark take a new value.
-/

namespace Sys2Proof.Machine

/-- `MATCH <- (v = REF)` (R30, R172). -/
def matchFlag (v ref : Byte) : Bool := v == ref

/-- `FAULT` keeps the first fault (R33, R202). -/
def stickyFault (old : Option FaultMark) (m : FaultMark) : Option FaultMark :=
  match old with
  | some first => some first
  | none => some m

/-- The refusal mark once set is kept for the whole run (R203). -/
def stickyRefusal (old : Option RefusalMark) : Option RefusalMark :=
  match old with
  | some first => some first
  | none => some .refusedEncoding

end Sys2Proof.Machine
end

