-- ==== Sys2Proof/Machine/Memory.lean ====
section
/-!
DEFINITION. The bytes last written at the paging registers (R38, R50) as a list of (address, byte) pairs in one canonical
form: addresses strictly rising, no byte listed that equals what an unlisted address reads as (log 11).
-/

namespace Sys2Proof.Machine

/-- What an address reads as that nothing has written (log 11). -/
def Memory.unlisted : Byte := 0

/-- The byte at an address. -/
def Memory.read : List Host.Cell → Nat → Byte
  | [], _ => unlisted
  | (x, y) :: m, a => if x = a then y else Memory.read m a

/-- Write one byte, keeping the canonical form. -/
def Memory.write : List Host.Cell → Nat → Byte → List Host.Cell
  | [], a, b => if b = unlisted then [] else [(a, b)]
  | (x, y) :: m, a, b =>
    if x < a then (x, y) :: Memory.write m a b
    else if x = a then (if b = unlisted then m else (a, b) :: m)
    else (if b = unlisted then (x, y) :: m else (a, b) :: (x, y) :: m)

/-- Write the `n`-byte value `v` at `a`, its least significant byte at the lowest address (R52, D25; log 11). -/
def Memory.writeBytes (m : List Host.Cell) (a : Nat) : Nat → Nat → List Host.Cell
  | 0, _ => m
  | n + 1, v => Memory.writeBytes (Memory.write m a (BitVec.ofNat 8 v)) (a + 1) n (v / 256)

/-- The canonical form holds. -/
def Memory.wf : List Host.Cell → Bool
  | [] => true
  | [(_, b)] => b != unlisted
  | (a, b) :: (x, y) :: m => b != unlisted && decide (a < x) && Memory.wf ((x, y) :: m)

end Sys2Proof.Machine
end

