-- ==== Sys2Proof/Decode.lean ====
section
/-!
DEFINITION. Decoding, total on everything the host can present (R81), the encoder written from the same tables
(R71 to R76), and the latched request of an instruction (R80).
-/

namespace Sys2Proof

/-- `OP`, request bits 15:12 (R71). -/
def opField (w : Word) : BitVec 4 := w.extractLsb' 12 4

/-- `MBZ`, request bits 11:8 (R71). -/
def mbzField (w : Word) : BitVec 4 := w.extractLsb' 8 4

/-- `IMM8`, request bits 7:0 (R71, R76). -/
def immField (w : Word) : Byte := w.extractLsb' 0 8

/-- The word `{OP, 0x0, IMM8}` (R82). -/
def requestWord (op : BitVec 4) (imm8 : Byte) : Word := op ++ (0 : BitVec 4) ++ imm8

/-- The field vector `F[0..6]` of R72 as a list. -/
def DateTimeFields.toList (f : DateTimeFields) : List Byte :=
  [f.year, f.month, f.day, f.dayOfWeek, f.hour, f.minute, f.second]

/-- The field vector of a list of exactly seven bytes (R72). -/
def DateTimeFields.ofList : List Byte → Option DateTimeFields
  | [year, month, day, dayOfWeek, hour, minute, second] => some ⟨year, month, day, dayOfWeek, hour, minute, second⟩
  | _ => none

/-- `IMM8` of WRITE_DATETIME: bit 0 `MODE12`, bit 1 `PM`, the rest 0 (R72, R82). -/
def dateTimeImm (mode12 pm : Bool) : Byte :=
  (if pm then 2 else 0) ||| (if mode12 then 1 else 0)

/-- A request without field bytes is refused if it carries any (R78). -/
def decodeBare (p : Presented) (fields : List Byte) (i : Instr) : Instr :=
  if fields = [] then i else .refused .fieldCount p

/-- An operation that takes no immediate: `IMM8` must be 0 (R76, R78). -/
def decodeNullary (p : Presented) (imm8 : Byte) (fields : List Byte) (i : Instr) : Instr :=
  if imm8 = 0 then decodeBare p fields i else .refused .unusedImmediate p

/-- WRITE_DATETIME: `IMM8[7:2]` must be 0 and there are exactly seven field bytes (R72, R78). -/
def decodeDatetime (p : Presented) (imm8 : Byte) (fields : List Byte) : Instr :=
  if imm8.extractLsb' 2 6 = 0 then
    match DateTimeFields.ofList fields with
    | some f => .writeDatetime (imm8.getLsbD 0) (imm8.getLsbD 1) f
    | none => .refused .fieldCount p
  else .refused .unusedImmediate p

/-- The operation code map of R73. -/
def decodeOp (p : Presented) (imm8 : Byte) (fields : List Byte) (op : Nat) : Instr :=
  match op with
  | 0x1 => decodeBare p fields (.sendCmd imm8)
  | 0x2 => decodeNullary p imm8 fields .readByte
  | 0x3 => decodeBare p fields (.writeByte imm8)
  | 0x4 => decodeNullary p imm8 fields .readStatus
  | 0x5 => decodeBare p fields (.writeStatus imm8)
  | 0x6 => decodeDatetime p imm8 fields
  | 0x7 => decodeNullary p imm8 fields .resetChip
  | 0x8 => decodeBare p fields (.toBcd imm8)
  | 0x9 => decodeBare p fields (.fromBcd imm8)
  | 0xA => decodeNullary p imm8 fields .detect
  | 0xB => decodeNullary p imm8 fields .enableAlt
  | _ => .refused .reservedOp p

/-- The wire command bytes of R74 and R75. -/
def decodeWire (c : Byte) : Instr :=
  match c.toNat with
  | 0x60 => .cmdMaskWrite0
  | 0x61 => .cmdMaskRead0
  | 0x62 => .cmdMaskWrite1
  | 0x63 => .cmdMaskRead1
  | 0x64 => .cmdMaskWrite2
  | 0x65 => .cmdMaskRead2
  | 0x66 => .cmdMaskWrite3
  | 0x67 => .cmdMaskRead3
  | 0x68 => .cmdMaskWrite4
  | 0x69 => .cmdMaskRead4
  | 0x6A => .cmdMaskWrite5
  | 0x6B => .cmdMaskRead5
  | 0x6C => .cmdMaskWrite6
  | 0x6D => .cmdMaskRead6
  | 0x6E => .cmdMaskWrite7
  | 0x6F => .cmdMaskRead7
  | _ => .refused .wireLayout (.wireByte c)

/-- Decoding, total (R81): an encoding that is not well formed decodes to `refused`, with the first reason met in the
order operation code, `MBZ`, immediate, field bytes (log 18). -/
def decode : Presented → Instr
  | .wireByte c => decodeWire c
  | .hostWord w fields =>
    if 1 ≤ (opField w).toNat ∧ (opField w).toNat ≤ 11 ∧ mbzField w ≠ 0 then
      .refused .nonzeroMbz (.hostWord w fields)
    else decodeOp (.hostWord w fields) (immField w) fields (opField w).toNat

/-- The encoding of an instruction: the request word `{OP, 0x0, IMM8}` with its field bytes (R71 to R73), a wire command
byte (R75), or the refused encoding itself. -/
def encode : Instr → Presented
  | .sendCmd c => .hostWord (requestWord 0x1 c) []
  | .readByte => .hostWord (requestWord 0x2 0) []
  | .writeByte v => .hostWord (requestWord 0x3 v) []
  | .readStatus => .hostWord (requestWord 0x4 0) []
  | .writeStatus v => .hostWord (requestWord 0x5 v) []
  | .writeDatetime mode12 pm f => .hostWord (requestWord 0x6 (dateTimeImm mode12 pm)) f.toList
  | .resetChip => .hostWord (requestWord 0x7 0) []
  | .toBcd n => .hostWord (requestWord 0x8 n) []
  | .fromBcd b => .hostWord (requestWord 0x9 b) []
  | .detect => .hostWord (requestWord 0xA 0) []
  | .enableAlt => .hostWord (requestWord 0xB 0) []
  | .cmdMaskWrite0 => .wireByte 0x60
  | .cmdMaskRead0 => .wireByte 0x61
  | .cmdMaskWrite1 => .wireByte 0x62
  | .cmdMaskRead1 => .wireByte 0x63
  | .cmdMaskWrite2 => .wireByte 0x64
  | .cmdMaskRead2 => .wireByte 0x65
  | .cmdMaskWrite3 => .wireByte 0x66
  | .cmdMaskRead3 => .wireByte 0x67
  | .cmdMaskWrite4 => .wireByte 0x68
  | .cmdMaskRead4 => .wireByte 0x69
  | .cmdMaskWrite5 => .wireByte 0x6A
  | .cmdMaskRead5 => .wireByte 0x6B
  | .cmdMaskWrite6 => .wireByte 0x6C
  | .cmdMaskRead6 => .wireByte 0x6D
  | .cmdMaskWrite7 => .wireByte 0x6E
  | .cmdMaskRead7 => .wireByte 0x6F
  | .refused _ p => p

/-- Whether the block accepts the instruction (R78, R80): every one but `refused`. -/
def Instr.accepted : Instr → Bool
  | .refused _ _ => false
  | _ => true

/-- The request a presented encoding latches (R23, R80): a request word's own fields; a wire command byte `c` as
SEND_CMD of `c` (log 1). -/
def Presented.request : Presented → Req
  | .hostWord w fields => ⟨opField w, immField w, fields⟩
  | .wireByte c => ⟨0x1, c, []⟩

/-- The operation a latched request names (R23, R73). -/
def Req.instr (r : Req) : Instr := decode (.hostWord (requestWord r.op r.imm8) r.fields)

/-- The operation of R73 an instruction is: a wire command byte is SEND_CMD of it (log 1). -/
def Instr.operation : Instr → Instr
  | .cmdMaskWrite0 => .sendCmd 0x60
  | .cmdMaskRead0 => .sendCmd 0x61
  | .cmdMaskWrite1 => .sendCmd 0x62
  | .cmdMaskRead1 => .sendCmd 0x63
  | .cmdMaskWrite2 => .sendCmd 0x64
  | .cmdMaskRead2 => .sendCmd 0x65
  | .cmdMaskWrite3 => .sendCmd 0x66
  | .cmdMaskRead3 => .sendCmd 0x67
  | .cmdMaskWrite4 => .sendCmd 0x68
  | .cmdMaskRead4 => .sendCmd 0x69
  | .cmdMaskWrite5 => .sendCmd 0x6A
  | .cmdMaskRead5 => .sendCmd 0x6B
  | .cmdMaskWrite6 => .sendCmd 0x6C
  | .cmdMaskRead6 => .sendCmd 0x6D
  | .cmdMaskWrite7 => .sendCmd 0x6E
  | .cmdMaskRead7 => .sendCmd 0x6F
  | i => i

/-- The encoding that spec/opcode_table.json's `nbits` bits `w` stand for: an 8-bit row is a wire command byte, a 16-bit
row a request word, with the seven field bytes of a WRITE_DATETIME zero and no field bytes otherwise (R72). -/
def presentedOf (nbits w : Nat) : Presented :=
  if nbits ≤ 8 then .wireByte (BitVec.ofNat 8 w)
  else .hostWord (BitVec.ofNat 16 w) (if opField (BitVec.ofNat 16 w) = 0x6 then List.replicate 7 0 else [])

/-- The instruction the decoder reads from a table word of 8 or 16 bits. -/
def decodeTableWord (nbits w : Nat) : Option Instr :=
  if (nbits = 8 ∨ nbits = 16) ∧ w < 2 ^ nbits then some (decode (presentedOf nbits w)) else none

end Sys2Proof
end

