-- ==== Sys2Proof/Machine/Operands.lean ====
section
/-!
DEFINITION. The operand forms and the values computed from operands: command bytes (R74), knock and commit values (R101),
the receive accumulator's shift (R110), packed BCD (R150 to R152), the date-time bytes (R133, R134), the status byte's
named bits (R39).
-/

namespace Sys2Proof.Machine

/-- `MASK_READ(x)`; refused above 7 (R74). -/
def maskRead (x : Nat) : Option Byte :=
  if x ≤ 7 then some (BitVec.ofNat 8 ((x <<< 1) ||| 0x61)) else none

/-- `MASK_WRITE(x)`; refused above 7 (R74). -/
def maskWrite (x : Nat) : Option Byte :=
  if x ≤ 7 then some (BitVec.ofNat 8 ((x <<< 1) ||| 0x60)) else none

/-- A data bit at its place on line P1 of DATA (R35). -/
def lineP1 (b : Bool) : Word := if b then 0b010 else 0

/-- `KV(b)`: P2 high, P1 the bit, P0 low (R101). -/
def knockValue (b : Bool) : Word := 0b100 ||| lineP1 b

/-- `CV(b)`: P2 high, P1 the bit, P0 high (R101). -/
def commitValue (b : Bool) : Word := 0b101 ||| lineP1 b

/-- `((RXACC << 1) | (r & 0b010))[8:0]` (R110). -/
def rxShift (acc : BitVec 9) (r : Word) : BitVec 9 := (acc <<< 1) ||| (r &&& 0b010).setWidth 9

/-- `RXACC[8:1]`, the byte BYTE_IN returns (R110). -/
def rxByte (acc : BitVec 9) : Byte := acc.extractLsb' 1 8

/-- `((n / 10) << 4) | (n % 10)` (R151). -/
def bcdByte (n : Byte) : Byte := BitVec.ofNat 8 (((n.toNat / 10) <<< 4) ||| (n.toNat % 10))

/-- `TO_BCD_FN`, no value above 99 (R151). -/
def toBcdFn (n : Byte) : Option Byte := if 99 < n.toNat then none else some (bcdByte n)

/-- `FROM_BCD_FN`, no value where a nibble is above 9 (R152). -/
def fromBcdFn (b : Byte) : Option Byte :=
  if 9 < (b.extractLsb' 4 4).toNat ∨ 9 < (b.extractLsb' 0 4).toNat then none
  else some (BitVec.ofNat 8 ((b.extractLsb' 4 4).toNat * 10 + (b.extractLsb' 0 4).toNat))

/-- The first value above 99 of a list, with its index counted from `j` (R133, R205). -/
def firstOutOfRange : List Byte → Nat → Option (Nat × Byte)
  | [], _ => none
  | v :: vs, j => if 99 < v.toNat then some (j, v) else firstOutOfRange vs (j + 1)

/-- The hour byte: its BCD byte, with bit 7 set when, and only when, `MODE12` and `PM` are (R134). -/
def hourByte (mode12 pm : Bool) (hour : Byte) : Byte :=
  if mode12 && pm then bcdByte hour ||| 0x80 else bcdByte hour

/-- The seven bytes `B[0..6]` of WRITE_DATETIME (R133). -/
def dateBytes (mode12 pm : Bool) (f : DateTimeFields) : List Byte :=
  [bcdByte f.year, bcdByte f.month, bcdByte f.day, bcdByte f.dayOfWeek, hourByte mode12 pm f.hour, bcdByte f.minute,
    bcdByte f.second]

/-- RawStatus bit 7, the "power/battery-low flag" (R39). The block does not read it. -/
def statusPowerLow (v : Byte) : Bool := v.getLsbD 7

/-- RawStatus bit 6, the "24-hour-mode flag" (R39). The block does not read it. -/
def statusMode24 (v : Byte) : Bool := v.getLsbD 6

end Sys2Proof.Machine
end

