-- ==== Sys2Proof/Machine/Ops.lean ====
section
/-!
DEFINITION. The primitives of R11 as named operations on the state, each appending its one event and advancing `SEQ_PC`
(R24, R41, R55), and the acceptance, completion, fault and refusal of a request (R79, R80, R202).
-/

namespace Sys2Proof.Machine

/-- The three port registers (R35). -/
inductive Port where
  | data
  | direction
  | control
deriving DecidableEq, Repr

/-- The address of a port register (R35). -/
def portAddr (c : Config) : Port → Nat
  | .data => c.gpioData
  | .direction => c.gpioDir
  | .control => c.gpioCtrl

/-- Append one event and advance the sequencer by exactly one (R24, R41). -/
def State.emit (e : Event) (s : State) : State :=
  { s with trace := s.trace ++ [e], seqPc := s.seqPc + 1 }

/-- Set the content of a port register, without an event. -/
def State.setPort (r : Port) (v : Word) (s : State) : State :=
  match r with
  | .data => { s with data := v }
  | .direction => { s with direction := v }
  | .control => { s with control := v }

/-- `PortWrite(R, v)` (R11, R53). -/
def State.portWrite (r : Port) (v : Word) (s : State) : State :=
  (s.setPort r v).emit (.wr (portAddr s.cfg r) Config.portW v.toNat)

/-- `MemWrite(addr, n, v)` at a paging register (R11, R38). -/
def State.memWrite (w : BusWrite) (s : State) : State :=
  { s with mem := Memory.writeBytes s.mem w.addr w.width w.value }.emit (.wr w.addr w.width w.value)

/-- What the oracle answers to a read now: the next of `answers`, or, where they are used up, a free value (R40; log 5). -/
def State.draw (addr : Nat) (n : Nat) (s : State) : Word :=
  match s.answers with
  | v :: _ => v
  | [] => Config.oracle s.trace addr n s.draws

/-- Record a read of `n` bytes at `addr` that answered `v`, and move on to the next answer (R11, R40). -/
def State.readDone (addr : Nat) (n v : Nat) (s : State) : State :=
  { s with answers := s.answers.tail, draws := s.draws + 1 }.emit (.rd addr n v)

/-- The value `PortRead(DATA)` returns now (R11, R53). -/
def State.dataDraw (s : State) : Word := s.draw s.cfg.gpioData Config.portW

/-- `r <- PortRead(DATA)`; `RXACC` takes in the sample (R102, R110). -/
def State.sample (s : State) : State :=
  { s with rxacc := rxShift s.rxacc s.dataDraw }.readDone s.cfg.gpioData Config.portW s.dataDraw.toNat

/-- The byte `MemRead(addr, CW)` returns now (R11, R53, R172). -/
def State.romDraw (addr : Nat) (s : State) : Byte := (s.draw addr Config.cw).setWidth 8

/-- `REF <- MemRead(CHECKSUM_ADDR, CW)` (R172). -/
def State.readRef (s : State) : State :=
  { s with refSum := s.romDraw s.cfg.checksumAddr }.readDone s.cfg.checksumAddr Config.cw
    (s.romDraw s.cfg.checksumAddr).toNat

/-- `v <- MemRead(PROBE_ADDR(p), CW); MATCH <- (v = REF)` (R172). -/
def State.probe (p : Nat) (s : State) : State :=
  { s with matched := matchFlag (s.romDraw (s.cfg.probeAddr p)) s.refSum }.readDone (s.cfg.probeAddr p) Config.cw
    (s.romDraw (s.cfg.probeAddr p)).toNat

/-- `IE_SAVED <- IeRead()` (R171). -/
def State.ieSave (s : State) : State := { s with ieSaved := s.ie }.emit (.ieRd s.ie)

/-- `IeSet(b)` (R11, R37). -/
def State.ieSet (b : Bool) (s : State) : State := { s with ie := b }.emit (.ieWr b)

/-- One write of `PAGE_SEQ(p)`, which commands page `p`, and kernel mode where `p` is selected as ENABLE_ALT's kernel page
(R38, R170, R177; log 10). -/
def State.pageWrite (p : Nat) (kernel : Bool) (w : BusWrite) (s : State) : State :=
  { s with page := p, pagingMode := if kernel then .kernel else s.pagingMode }.memWrite w

/-- The write of `RTC_EN`, which "enables the RTC-passthrough clock" (R177; log 10). -/
def State.rtcEnable (s : State) : State := { s with passthrough := true }.memWrite s.cfg.rtcEn

/-- Acceptance: `REQ <- request`, `SEQ_PC <- 0`, `SEQ_STATE <- Busy`, no event (R80). -/
def State.accept (r : Req) (s : State) : State := { s with req := r, seqPc := 0, seqState := .busy }

/-- Completion: `RESULT` takes the result if there is one, the result is delivered to the host, `SEQ_STATE <- Idle`
(R28, R80). -/
def State.complete (r : Option Result) (s : State) : State :=
  { s with
    result := r.getD s.result
    delivered := s.delivered ++ [⟨s.req, match r with | some v => .result v | none => .done⟩]
    seqState := .idle }

/-- Taking a fault, the one exception-like event of the block: the operation stops, no result is delivered, `FAULT` keeps
the first fault, the fault is delivered in place of the result, `SEQ_STATE <- Idle` (R202, R208). There is no saved state,
no vector and no return from it: the host goes on with its next request (R208). -/
def State.raiseFault (m : FaultMark) (s : State) : State :=
  { s with
    fault := stickyFault s.fault m
    delivered := s.delivered ++ [⟨s.req, .fault m⟩]
    seqState := .idle }

/-- Refusing an encoding: the refusal mark is set and nothing else changes (R79, R203). -/
def State.refuse (s : State) : State := { s with refusal := stickyRefusal s.refusal }

/-- Run an operation as one call (R34, R80): the request is accepted only while Idle (R22, R206; log 14). -/
def State.call (r : Req) (body : State → State) (s : State) : Host.Outcome State Fault Refusal :=
  match s.seqState with
  | .idle => .next (body (s.accept r))
  | .busy => .refused .busy

end Sys2Proof.Machine
end

