-- ==== Sys2Proof/Machine/PinProgram.lean ====
section
/-!
DEFINITION. Pin programs (R11): the ordered events of an operation as a list of primitives, the building blocks of
spec/40_bus.md and spec/43_alias_detector.md, and the pin program of every operation. DETECT's may be left early: a
matching non-bootloader probe moves `SEQ_PC` to its epilogue (R173).
-/

namespace Sys2Proof.Machine

/-- Register settings that the pseudocode makes just before an event and that are no event themselves. -/
inductive Setup where
  | none
  /-- `TXSR <- v` (R106, R108), and `BITCNT` counts from 0 (log 12). -/
  | loadTx (v : Byte)
  /-- `RXACC <- 0` (R110), and `BITCNT` counts from 0 (log 12). -/
  | clearRx
  /-- `PAGE_IDX <- i` (R172). -/
  | pageIndex (i : Nat)
deriving DecidableEq, Repr

/-- The accesses of the pin programs, one event each. -/
inductive Access where
  /-- A port write of a fixed value (R104, R131, R135). -/
  | port (r : Port) (v : Word)
  /-- The `k`-th knock of the write slot that carries `TXSR[bit]` (R102). -/
  | txKnock (bit k : Nat)
  /-- The commit of that slot, the `n`-th of its byte (R102). -/
  | txCommit (bit n : Nat)
  /-- The `k`-th knock of a read slot (R102). -/
  | rxKnock (k : Nat)
  /-- The commit of a read slot (R102). -/
  | rxCommit
  /-- The sample of the `n`-th read slot (R102, R110). -/
  | rxSample (n : Nat)
  /-- `IE_SAVED <- IeRead()` (R171). -/
  | ieSave
  /-- `IeSet(false)` (R171). -/
  | ieClear
  /-- `IeSet(IE_SAVED)` (R175). -/
  | ieRestore
  /-- The reference read (R172). -/
  | readRef
  /-- One write of `PAGE_SEQ(p)` (R170). -/
  | pageWrite (p : Nat) (kernel : Bool) (w : BusWrite)
  /-- The probe of page `p`; with `exits`, a match moves `SEQ_PC` to the epilogue (R172, R173). -/
  | probe (p : Nat) (exits : Bool)
  /-- The write of `RTC_EN` (R177). -/
  | rtcEnable
deriving DecidableEq, Repr

/-- One primitive of a pin program: an event and what is set just before it. -/
structure Prim where
  setup : Setup := .none
  access : Access
deriving DecidableEq, Repr

/-- Put register settings before the first event of a program. -/
def withSetup (u : Setup) : List Prim → List Prim
  | [] => []
  | p :: ps => { p with setup := u } :: ps

/-- The counters 1 to `k` of a `for` loop. -/
def countTo (k : Nat) : List Nat := (List.range k).map (· + 1)

/-- `WSLOT(TXSR[bit], K)`, the `n`-th slot of its byte (R102). -/
def writeSlot (k bit n : Nat) : List Prim :=
  (countTo k).map (fun j => { access := .txKnock bit j }) ++ [{ access := .txCommit bit n }]

/-- `RSLOT(K)`, the `n`-th slot of its byte (R102). -/
def readSlot (k n : Nat) : List Prim :=
  (countTo k).map (fun j => { access := .rxKnock j }) ++ [{ access := .rxCommit }, { access := .rxSample n }]

/-- `WAKE` (R104). -/
def wake : List Prim :=
  [{ access := .port .control 0b001 }, { access := .port .data 0b001 }, { access := .port .data 0b101 },
    { access := .port .direction 0b111 }]

/-- `CMD_OUT(c)`: bit 7 first (R106). -/
def cmdOut (k : Nat) (c : Byte) : List Prim :=
  withSetup (.loadTx c) ((List.range 8).flatMap fun j => writeSlot k (7 - j) (j + 1))

/-- `BYTE_OUT(v)`: bit 0 first (R108). -/
def byteOut (k : Nat) (v : Byte) : List Prim :=
  withSetup (.loadTx v) ((List.range 8).flatMap fun j => writeSlot k j (j + 1))

/-- `BYTE_IN()` (R110). -/
def byteIn (k : Nat) : List Prim :=
  withSetup .clearRx ((List.range 8).flatMap fun j => readSlot k (j + 1))

/-- `TRANSACTION(cmd, body)` (R130). -/
def transaction (k : Nat) (cmd : Byte) (body : List Prim) : List Prim := wake ++ cmdOut k cmd ++ body

/-- READ_STATUS (R131). -/
def readStatusProgram (c : Config) : List Prim :=
  transaction c.kCmd 0x63 ({ access := .port .direction 0b101 } :: byteIn c.kRead)

/-- WRITE_STATUS (R132). -/
def writeStatusProgram (c : Config) (v : Byte) : List Prim := transaction c.kCmd 0x62 (byteOut c.kWrite v)

/-- WRITE_DATETIME after its range check (R133). -/
def writeDatetimeProgram (c : Config) (mode12 pm : Bool) (f : DateTimeFields) : List Prim :=
  transaction c.kCmd 0x64 ((dateBytes mode12 pm f).flatMap (byteOut c.kWrite))

/-- RESET_CHIP, with its one extra knock `KV(0)` (R135). -/
def resetChipProgram (c : Config) : List Prim :=
  transaction c.kCmd 0x61 [{ access := .port .data (knockValue false) }]

/-- `PAGE_SELECT(p)` (R170). -/
def pageSelect (c : Config) (p : Nat) (kernel : Bool) : List Prim :=
  (c.pageSeq p).map fun w => { access := .pageWrite p kernel w }

/-- Select page `p` and probe it (R172). -/
def probeProgram (c : Config) (p : Nat) (exits : Bool) : List Prim :=
  pageSelect c p false ++ [{ access := .probe p exits }]

/-- Select and probe the flash page of index `i` (R172). -/
def flashProgram (c : Config) (i : Nat) (p : Nat) : List Prim :=
  withSetup (.pageIndex i) (probeProgram c p true)

/-- The flash pages in index order, counted from `i` (R172). -/
def flashPrograms (c : Config) : Nat → List Nat → List Prim
  | _, [] => []
  | i, p :: ps => flashProgram c i p ++ flashPrograms c (i + 1) ps

/-- DETECT up to its reference read: the interrupt bracket's entry and `REF` (R171, R172). -/
def detectPrefix : List Prim := [{ access := .ieSave }, { access := .ieClear }, { access := .readRef }]

/-- DETECT without its epilogue (R172). -/
def detectBody (c : Config) : List Prim :=
  detectPrefix ++ probeProgram c c.bootPage false ++ probeProgram c c.psramPage true ++
    flashPrograms c 0 c.flashPages

/-- The position of DETECT's epilogue (R24, R173; log 13). -/
def detectExit (c : Config) : Nat := (detectBody c).length

/-- DETECT; the epilogue restores `IE` and the result is `MATCH` (R172, R175; log 13). -/
def detectProgram (c : Config) : List Prim := detectBody c ++ [{ access := .ieRestore }]

/-- ENABLE_ALT (R177). -/
def enableAltProgram (c : Config) : List Prim :=
  pageSelect c c.kernelPage true ++ pageSelect c c.kernelPage true ++ [{ access := .rtcEnable }]

/-- Make the register settings that go before an event. -/
def Setup.apply : Setup → State → State
  | .none, s => s
  | .loadTx v, s => { s with txsr := v, bitcnt := 0 }
  | .clearRx, s => { s with rxacc := 0, bitcnt := 0 }
  | .pageIndex i, s => { s with pageIdx := i }

/-- Move `SEQ_PC` to DETECT's epilogue if the probe matched (R173). -/
def exitOnMatch (exits : Bool) (s : State) : State :=
  if exits && s.matched then { s with seqPc := detectExit s.cfg } else s

/-- Perform an access, its event and what it sets. -/
def Access.run : Access → State → State
  | .port r v, s => s.portWrite r v
  | .txKnock bit k, s => { s with kcnt := k }.portWrite .data (knockValue (s.txsr.getLsbD bit))
  | .txCommit bit n, s => { s with kcnt := 0, bitcnt := n }.portWrite .data (commitValue (s.txsr.getLsbD bit))
  | .rxKnock k, s => { s with kcnt := k }.portWrite .data (knockValue false)
  | .rxCommit, s => { s with kcnt := 0 }.portWrite .data (commitValue false)
  | .rxSample n, s => { s with bitcnt := n }.sample
  | .ieSave, s => s.ieSave
  | .ieClear, s => s.ieSet false
  | .ieRestore, s => s.ieSet s.ieSaved
  | .readRef, s => s.readRef
  | .pageWrite p kernel w, s => s.pageWrite p kernel w
  | .probe p exits, s => exitOnMatch exits (s.probe p)
  | .rtcEnable, s => s.rtcEnable

/-- One primitive of a pin program: exactly one event (R11). -/
def Prim.run (p : Prim) (s : State) : State := p.access.run (p.setup.apply s)

/-- A straight-line pin program, from its first event to its last (R11). -/
def runPrims : List Prim → State → State
  | [], s => s
  | p :: ps, s => runPrims ps (p.run s)

/-- The flash pages in index order, up to and including the first match (R172, R173). -/
def probeFlash : Nat → List Nat → State → State
  | _, [], s => s
  | i, p :: ps, s =>
    let t := runPrims (flashProgram s.cfg i p) s
    if t.matched then t else probeFlash (i + 1) ps t

/-- The three classes of pages, up to and including the first non-bootloader match (R172, R173). -/
def probeClasses (s : State) : State :=
  let t := runPrims (probeProgram s.cfg s.cfg.psramPage true) (runPrims (probeProgram s.cfg s.cfg.bootPage false) s)
  if t.matched then t else probeFlash 0 t.cfg.flashPages t

/-- DETECT as one run: bracket entry, reference, probes, bracket exit (R172). -/
def runDetect (s : State) : State :=
  let t := probeClasses (runPrims detectPrefix s)
  t.ieSet t.ieSaved

end Sys2Proof.Machine
end

