-- ==== Sys2Proof/Machine/Bcd.lean ====
section
/-!
DEFINITION. The BCD operations TO_BCD and FROM_BCD (spec/42_bcd.md). They reach no location and have no event.
-/

namespace Sys2Proof.Machine

/-- The fault of a TO_BCD: an operand above 99 (R151, R201). -/
def toBcdFault (n : Byte) : Option FaultMark :=
  if 99 < n.toNat then some ⟨.bcdRange, 0x8, n, none⟩ else none

/-- The fault of a FROM_BCD: a nibble above 9 (R152, R201). -/
def fromBcdFault (b : Byte) : Option FaultMark :=
  match fromBcdFn b with
  | some _ => none
  | none => some ⟨.bcdDigit, 0x9, b, none⟩

/-- TO_BCD (R151). -/
def execToBcd (n : Byte) (s : State) : Host.Outcome State Fault Refusal :=
  s.call ⟨0x8, n, []⟩ fun a =>
    match toBcdFault n with
    | some m => a.raiseFault m
    | none => a.complete ((toBcdFn n).map .byte)

/-- FROM_BCD (R152). -/
def execFromBcd (b : Byte) (s : State) : Host.Outcome State Fault Refusal :=
  s.call ⟨0x9, b, []⟩ fun a =>
    match fromBcdFault b with
    | some m => a.raiseFault m
    | none => a.complete ((fromBcdFn b).map .byte)

end Sys2Proof.Machine
end

