-- ==== Sys2Proof/Machine/Bus.lean ====
section
/-!
DEFINITION. The bare bus operations SEND_CMD, WRITE_BYTE and READ_BYTE (spec/40_bus.md): no wake sequence, no DIRECTION write.
-/

namespace Sys2Proof.Machine

/-- `CMD_OUT(c); return` as an operation: the meaning SEND_CMD shares with the wire command bytes (R107, R75; log 1). -/
def sendCommand (c : Byte) (s : State) : Host.Outcome State Fault Refusal :=
  s.call ⟨0x1, c, []⟩ fun a => (runPrims (cmdOut a.cfg.kCmd c) a).complete none

/-- SEND_CMD (R107): shift out one command byte, bit 7 first; every value is shifted out unchanged. -/
def execSendCmd (c : Byte) (s : State) : Host.Outcome State Fault Refusal := sendCommand c s

/-- WRITE_BYTE (R109): shift out one data byte, bit 0 first. -/
def execWriteByte (v : Byte) (s : State) : Host.Outcome State Fault Refusal :=
  s.call ⟨0x3, v, []⟩ fun a => (runPrims (byteOut a.cfg.kWrite v) a).complete none

/-- The byte in `RXACC` becomes the result (R110, R111). -/
def completeRx (s : State) : State := s.complete (some (.byte (rxByte s.rxacc)))

/-- READ_BYTE (R111): shift in one data byte, the first sample is bit 7. -/
def execReadByte (s : State) : Host.Outcome State Fault Refusal :=
  s.call ⟨0x2, 0, []⟩ fun a => completeRx (runPrims (byteIn a.cfg.kRead) a)

end Sys2Proof.Machine
end

