-- ==== Sys2Proof/Machine/Detector.lean ====
section
/-!
DEFINITION. The ROM-address-aliasing detector DETECT and the mode switch ENABLE_ALT (spec/43_alias_detector.md).
-/

namespace Sys2Proof.Machine

/-- The result of DETECT is `MATCH` at its epilogue: true on the exit a match takes, false otherwise (R172; log 13). -/
def completeDetect (s : State) : State := s.complete (some (.flag s.matched))

/-- DETECT (R172): `IE` is restored on every exit (R175). -/
def execDetect (s : State) : Host.Outcome State Fault Refusal :=
  s.call ⟨0xA, 0, []⟩ fun a => completeDetect (runDetect a)

/-- ENABLE_ALT (R177): the kernel page selected twice, then `RTC_EN`; `IE` is not touched. -/
def execEnableAlt (s : State) : Host.Outcome State Fault Refusal :=
  s.call ⟨0xB, 0, []⟩ fun a => (runPrims (enableAltProgram a.cfg) a).complete none

end Sys2Proof.Machine
end

