-- ==== Sys2Proof/Machine/Refused.lean ====
section
/-!
DEFINITION. The table's row REFUSED: an encoding that is not well formed (R79, R203; log 2).
-/

namespace Sys2Proof.Machine

/-- REFUSED (R79): not accepted, no event, every register unchanged, the refusal mark set. -/
def execRefused (_why : Reject) (_p : Presented) (s : State) : Host.Outcome State Fault Refusal :=
  match s.seqState with
  | .idle => .next s.refuse
  | .busy => .refused .busy

end Sys2Proof.Machine
end

