-- ==== Sys2Proof/Machine/Rtc.lean ====
section
/-!
DEFINITION. The chip-level transactions READ_STATUS, WRITE_STATUS, WRITE_DATETIME and RESET_CHIP (spec/41_rtc_protocol.md).
-/

namespace Sys2Proof.Machine

/-- READ_STATUS (R131): the result is the RawStatus; DIRECTION is left at `0b101` (R105). -/
def execReadStatus (s : State) : Host.Outcome State Fault Refusal :=
  s.call ⟨0x4, 0, []⟩ fun a => completeRx (runPrims (readStatusProgram a.cfg) a)

/-- WRITE_STATUS (R132): every value is written as given. -/
def execWriteStatus (v : Byte) (s : State) : Host.Outcome State Fault Refusal :=
  s.call ⟨0x5, v, []⟩ fun a => (runPrims (writeStatusProgram a.cfg v) a).complete none

/-- The fault of a WRITE_DATETIME: the lowest index of a field above 99 (R133, R201, R205). -/
def dateTimeFault (f : DateTimeFields) : Option FaultMark :=
  match firstOutOfRange f.toList 0 with
  | some (j, v) => some ⟨.bcdRange, 0x6, v, some j⟩
  | none => none

/-- WRITE_DATETIME (R133): all seven fields are checked before the first event (R204). -/
def execWriteDatetime (mode12 pm : Bool) (f : DateTimeFields) (s : State) : Host.Outcome State Fault Refusal :=
  s.call ⟨0x6, dateTimeImm mode12 pm, f.toList⟩ fun a =>
    match dateTimeFault f with
    | some m => a.raiseFault m
    | none => (runPrims (writeDatetimeProgram a.cfg mode12 pm f) a).complete none

/-- RESET_CHIP (R135). -/
def execResetChip (s : State) : Host.Outcome State Fault Refusal :=
  s.call ⟨0x7, 0, []⟩ fun a => (runPrims (resetChipProgram a.cfg) a).complete none

end Sys2Proof.Machine
end

