-- ==== Sys2Proof/Machine/Wire.lean ====
section
/-!
DEFINITION. The sixteen wire command bytes of R74 and R75. A wire command byte means that it is shifted out whole by the
command shift-out, which is SEND_CMD of that byte (R74, R107; log 1).
-/

namespace Sys2Proof.Machine

/-- CMD_MASK_WRITE0: the command byte `MASK_WRITE(0)` (R75). -/
def execCmdMaskWrite0 (s : State) : Host.Outcome State Fault Refusal := sendCommand 0x60 s

/-- CMD_MASK_READ0: the command byte `MASK_READ(0)` (R75). -/
def execCmdMaskRead0 (s : State) : Host.Outcome State Fault Refusal := sendCommand 0x61 s

/-- CMD_MASK_WRITE1: the command byte `MASK_WRITE(1)` (R75). -/
def execCmdMaskWrite1 (s : State) : Host.Outcome State Fault Refusal := sendCommand 0x62 s

/-- CMD_MASK_READ1: the command byte `MASK_READ(1)` (R75). -/
def execCmdMaskRead1 (s : State) : Host.Outcome State Fault Refusal := sendCommand 0x63 s

/-- CMD_MASK_WRITE2: the command byte `MASK_WRITE(2)` (R75). -/
def execCmdMaskWrite2 (s : State) : Host.Outcome State Fault Refusal := sendCommand 0x64 s

/-- CMD_MASK_READ2: the command byte `MASK_READ(2)` (R75). -/
def execCmdMaskRead2 (s : State) : Host.Outcome State Fault Refusal := sendCommand 0x65 s

/-- CMD_MASK_WRITE3: the command byte `MASK_WRITE(3)` (R74). -/
def execCmdMaskWrite3 (s : State) : Host.Outcome State Fault Refusal := sendCommand 0x66 s

/-- CMD_MASK_READ3: the command byte `MASK_READ(3)` (R74). -/
def execCmdMaskRead3 (s : State) : Host.Outcome State Fault Refusal := sendCommand 0x67 s

/-- CMD_MASK_WRITE4: the command byte `MASK_WRITE(4)` (R74). -/
def execCmdMaskWrite4 (s : State) : Host.Outcome State Fault Refusal := sendCommand 0x68 s

/-- CMD_MASK_READ4: the command byte `MASK_READ(4)` (R74). -/
def execCmdMaskRead4 (s : State) : Host.Outcome State Fault Refusal := sendCommand 0x69 s

/-- CMD_MASK_WRITE5: the command byte `MASK_WRITE(5)` (R74). -/
def execCmdMaskWrite5 (s : State) : Host.Outcome State Fault Refusal := sendCommand 0x6A s

/-- CMD_MASK_READ5: the command byte `MASK_READ(5)` (R74). -/
def execCmdMaskRead5 (s : State) : Host.Outcome State Fault Refusal := sendCommand 0x6B s

/-- CMD_MASK_WRITE6: the command byte `MASK_WRITE(6)` (R74). -/
def execCmdMaskWrite6 (s : State) : Host.Outcome State Fault Refusal := sendCommand 0x6C s

/-- CMD_MASK_READ6: the command byte `MASK_READ(6)` (R74). -/
def execCmdMaskRead6 (s : State) : Host.Outcome State Fault Refusal := sendCommand 0x6D s

/-- CMD_MASK_WRITE7: the command byte `MASK_WRITE(7)` (R74). -/
def execCmdMaskWrite7 (s : State) : Host.Outcome State Fault Refusal := sendCommand 0x6E s

/-- CMD_MASK_READ7: the command byte `MASK_READ(7)` (R74). -/
def execCmdMaskRead7 (s : State) : Host.Outcome State Fault Refusal := sendCommand 0x6F s

end Sys2Proof.Machine
end

