-- ==== Sys2Proof/Machine/Dispatch.lean ====
section
/-!
DEFINITION. The dispatch of every instruction to its meaning, one arm per constructor.
-/

namespace Sys2Proof.Machine

def exec (i : Instr) (s : State) : Host.Outcome State Fault Refusal :=
  match i with
  | .sendCmd c => Sys2Proof.Machine.execSendCmd c s
  | .readByte => Sys2Proof.Machine.execReadByte s
  | .writeByte v => Sys2Proof.Machine.execWriteByte v s
  | .readStatus => Sys2Proof.Machine.execReadStatus s
  | .writeStatus v => Sys2Proof.Machine.execWriteStatus v s
  | .writeDatetime mode12 pm f => Sys2Proof.Machine.execWriteDatetime mode12 pm f s
  | .resetChip => Sys2Proof.Machine.execResetChip s
  | .toBcd n => Sys2Proof.Machine.execToBcd n s
  | .fromBcd b => Sys2Proof.Machine.execFromBcd b s
  | .detect => Sys2Proof.Machine.execDetect s
  | .enableAlt => Sys2Proof.Machine.execEnableAlt s
  | .cmdMaskWrite0 => Sys2Proof.Machine.execCmdMaskWrite0 s
  | .cmdMaskRead0 => Sys2Proof.Machine.execCmdMaskRead0 s
  | .cmdMaskWrite1 => Sys2Proof.Machine.execCmdMaskWrite1 s
  | .cmdMaskRead1 => Sys2Proof.Machine.execCmdMaskRead1 s
  | .cmdMaskWrite2 => Sys2Proof.Machine.execCmdMaskWrite2 s
  | .cmdMaskRead2 => Sys2Proof.Machine.execCmdMaskRead2 s
  | .cmdMaskWrite3 => Sys2Proof.Machine.execCmdMaskWrite3 s
  | .cmdMaskRead3 => Sys2Proof.Machine.execCmdMaskRead3 s
  | .cmdMaskWrite4 => Sys2Proof.Machine.execCmdMaskWrite4 s
  | .cmdMaskRead4 => Sys2Proof.Machine.execCmdMaskRead4 s
  | .cmdMaskWrite5 => Sys2Proof.Machine.execCmdMaskWrite5 s
  | .cmdMaskRead5 => Sys2Proof.Machine.execCmdMaskRead5 s
  | .cmdMaskWrite6 => Sys2Proof.Machine.execCmdMaskWrite6 s
  | .cmdMaskRead6 => Sys2Proof.Machine.execCmdMaskRead6 s
  | .cmdMaskWrite7 => Sys2Proof.Machine.execCmdMaskWrite7 s
  | .cmdMaskRead7 => Sys2Proof.Machine.execCmdMaskRead7 s
  | .refused why p => Sys2Proof.Machine.execRefused why p s

end Sys2Proof.Machine
end

