-- ==== Sys2Proof/Machine/Sequencer.lean ====
section
/-!
DEFINITION. The sequencer one event a step (R20, R24, R80): the pin program of each operation by position, the operand
check before its first event (R204), and the return after its last one. It is the second view of R34 beside `exec`; both
run the same primitives.
-/

namespace Sys2Proof.Machine

/-- The fault an operation's operands raise before its first event (R201, R204). -/
def operandFault : Instr → Option FaultMark
  | .writeDatetime _ _ f => dateTimeFault f
  | .toBcd n => toBcdFault n
  | .fromBcd b => fromBcdFault b
  | _ => none

/-- The pin program of an operation (R11); a wire command byte reaches the sequencer as SEND_CMD of it (log 1). -/
def programOf (c : Config) : Instr → List Prim
  | .sendCmd v => cmdOut c.kCmd v
  | .readByte => byteIn c.kRead
  | .writeByte v => byteOut c.kWrite v
  | .readStatus => readStatusProgram c
  | .writeStatus v => writeStatusProgram c v
  | .writeDatetime mode12 pm f => writeDatetimeProgram c mode12 pm f
  | .resetChip => resetChipProgram c
  | .detect => detectProgram c
  | .enableAlt => enableAltProgram c
  | _ => []

/-- The result an operation returns (R73). -/
def resultOf (i : Instr) (s : State) : Option Result :=
  match i with
  | .readByte => some (.byte (rxByte s.rxacc))
  | .readStatus => some (.byte (rxByte s.rxacc))
  | .toBcd n => (toBcdFn n).map .byte
  | .fromBcd b => (fromBcdFn b).map .byte
  | .detect => some (.flag s.matched)
  | _ => none

/-- One step of the operation `i` in progress: its fault if an operand breaks a precondition (R202, R204), else the event at
`SEQ_PC` (R24), else, after the last event, its return, a step without an event (R80; log 4). -/
def advance (i : Instr) (s : State) : State :=
  match operandFault i with
  | some m => s.raiseFault m
  | none =>
    match (programOf s.cfg i)[s.seqPc]? with
    | some p => p.run s
    | none => s.complete (resultOf i s)

/-- One step while Busy: of the operation that `REQ` names (R20, R23). -/
def tick (s : State) : Host.Outcome State Fault Refusal :=
  if s.req.instr.accepted then .next (advance s.req.instr s) else .fault .busyWithoutRequest

end Sys2Proof.Machine
end

