-- ==== Sys2Proof/Machine/HostSide.lean ====
section
/-!
DEFINITION. The host's side of a step (R20, R80, R206, R220, R234): which move of `inbox` the block meets, what a reset does,
and how a request is placed for the very next step (log 3).
-/

namespace Sys2Proof.Machine

/-- A reset of the host (R220, R221): Idle with no operation in progress, no event; the internal registers as at power-on,
the trace, the marks and the deliveries kept, the external registers not reset (log 16). -/
def State.hostReset (s : State) : State :=
  { s with
    seqState := .idle
    req := (State.boot s.cfg).req
    seqPc := (State.boot s.cfg).seqPc
    txsr := (State.boot s.cfg).txsr
    rxacc := (State.boot s.cfg).rxacc
    bitcnt := (State.boot s.cfg).bitcnt
    kcnt := (State.boot s.cfg).kcnt
    result := (State.boot s.cfg).result
    refSum := (State.boot s.cfg).refSum
    matched := (State.boot s.cfg).matched
    pageIdx := (State.boot s.cfg).pageIdx
    ieSaved := (State.boot s.cfg).ieSaved }

/-- The acceptance step (R80): a well-formed request is latched and the block is Busy; any other is refused (R79). -/
def State.acceptStep (p : Presented) (s : State) : State :=
  if (decode p).accepted then s.accept p.request else s.refuse

/-- What the next step does. -/
inductive Turn where
  /-- The whole operation as one call (R34). -/
  | run (i : Instr) (s : State)
  /-- A step of the host's side alone. -/
  | settled (s : State)
  /-- One step of the operation in progress. -/
  | sequence
deriving DecidableEq, Repr

/-- While Busy the host presents no request (R206) and does not touch `IE` (R226); only a reset can come in. -/
def State.busyTurn (s : State) : Turn :=
  match s.inbox with
  | .reset after :: rest => if after ≤ s.seqPc then .settled { s with inbox := rest }.hostReset else .sequence
  | _ => .sequence

/-- While Idle the block meets the host's next move; with none it waits (R220, R234). -/
def State.idleTurn (s : State) : Turn :=
  match s.inbox with
  | [] => .settled s
  | .call p :: rest => .run (decode p) { s with inbox := rest }
  | .present p :: rest => .settled ({ s with inbox := rest }.acceptStep p)
  | .setIe b :: rest => .settled { s with inbox := rest, ie := b }
  | .reset _ :: rest => .settled { s with inbox := rest }.hostReset

/-- What the next step does. -/
def State.turn (s : State) : Turn :=
  match s.seqState with
  | .idle => s.idleTurn
  | .busy => s.busyTurn

/-- The host calls this encoding next, the block being Idle (log 3). -/
def State.placeRequest (p : Presented) (s : State) : State :=
  { s with seqState := .idle, inbox := .call p :: s.inbox }

end Sys2Proof.Machine
end

