-- ==== Sys2Proof/Machine/Step.lean ====
section
/-!
DEFINITION. One step of the machine, and the placing of a table word for the very next step.
-/

namespace Sys2Proof.Machine

/-- One step: the host's call of a whole operation (R34), a step of the host's side (R80, R220), or one step of the
operation in progress (R20). -/
def step (s : State) : Host.Outcome State Fault Refusal :=
  match s.turn with
  | .run i t => exec i t
  | .settled t => .next t
  | .sequence => tick s

/-- `s` with the table word placed as the host's next call, so that the very next step runs it (log 3). -/
def State.withFetchWord (s : State) (nbits w : Nat) : State := s.placeRequest (presentedOf nbits w)

end Sys2Proof.Machine
end

