-- ==== Sys2Proof/Safety.lean ====
section
/-!
DEFINITION. The terms claims are stated in: the events the spec lists for each building block, written from its own numbers;
the successful end of a run (R233); and what a good state is.
-/

namespace Sys2Proof.Safety

open Sys2Proof.Machine

/-- One write of DATA (R35, R53). -/
def dataWr (c : Config) (v : Nat) : Event := .wr c.gpioData 2 v

/-- A write slot of bit `b` with `k` knocks: 4 or 6 `k` times, then 5 or 7 (R101, R102). -/
def writeSlotEvents (c : Config) (k : Nat) (b : Bool) : List Event :=
  List.replicate k (dataWr c (if b then 6 else 4)) ++ [dataWr c (if b then 7 else 5)]

/-- A command byte, bit 7 first (R106). -/
def commandEvents (c : Config) (v : Byte) : List Event :=
  [7, 6, 5, 4, 3, 2, 1, 0].flatMap fun i => writeSlotEvents c c.kCmd (v.getLsbD i)

/-- A data byte, bit 0 first (R108). -/
def byteEvents (c : Config) (v : Byte) : List Event :=
  [0, 1, 2, 3, 4, 5, 6, 7].flatMap fun i => writeSlotEvents c c.kWrite (v.getLsbD i)

/-- A read slot whose sample is `r`: 4 `K_READ` times, 5, then the read (R102). -/
def readSlotEvents (c : Config) (r : Word) : List Event :=
  List.replicate c.kRead (dataWr c 4) ++ [dataWr c 5, .rd c.gpioData 2 r.toNat]

/-- The read slots of the samples `rs`, first sample first (R110). -/
def readEvents (c : Config) (rs : List Word) : List Event := rs.flatMap (readSlotEvents c)

/-- The number whose bits are line P1 of the samples, the first sample the most significant (R110). -/
def sampledValue (rs : List Word) : Nat := rs.foldl (fun acc r => 2 * acc + (if r.getLsbD 1 then 1 else 0)) 0

/-- The wake sequence: CONTROL 1, DATA 1, DATA 5, DIRECTION 7 (R104). -/
def wakeEvents (c : Config) : List Event := [.wr c.gpioCtrl 2 1, dataWr c 1, dataWr c 5, .wr c.gpioDir 2 7]

/-- The writes of `PAGE_SEQ(p)` (R170). -/
def pageEvents (c : Config) (p : Nat) : List Event := (c.pageSeq p).map fun w => .wr w.addr w.width w.value

/-- A page select and its probe, which answered `v` (R172). -/
def probeEvents (c : Config) (p : Nat) (v : Byte) : List Event :=
  pageEvents c p ++ [.rd (c.probeAddr p) 1 v.toNat]

/-- The pages DETECT probes, in order: bootloader, PSRAM, flash pages by index (R172). -/
def probedPages (c : Config) : List Nat := c.bootPage :: c.psramPage :: c.flashPages

/-- The events of DETECT when `IE` is `ie` on entry, the reference reads `ref` and the probes performed answer `vs`
(R171, R172, R175). -/
def detectEvents (c : Config) (ie : Bool) (ref : Byte) (vs : List Byte) : List Event :=
  [.ieRd ie, .ieWr false, .rd c.checksumAddr 1 ref.toNat] ++
    ((probedPages c).zip vs).flatMap (fun pv => probeEvents c pv.1 pv.2) ++ [.ieWr ie]

/-- The bytes of a list of (address, width, value) writes laid into a memory, one after the other. -/
def writeAll (m : List Host.Cell) (ws : List BusWrite) : List Host.Cell :=
  ws.foldl (fun m w => Memory.writeBytes m w.addr w.width w.value) m

/-- The addresses a register write stores to. -/
def stored (w : BusWrite) (a : Nat) : Prop := w.addr ≤ a ∧ a < w.addr + w.width

/-- Line P1 is driven by the block (R227). -/
def p1Driven (s : State) : Prop := s.direction = 0b111

/-- Line P1 is released to the chip (R227). -/
def p1Released (s : State) : Prop := s.direction = 0b101

/-- The run ended successfully (R233): no further request, Idle, `FAULT` clear, no refusal marked. DESIGN CHOICE: a reset or a
setting of `IE` still to come counts as a request still to come, of which R233 says nothing (log 29). -/
def successfulEnd (s : State) : Bool :=
  s.inbox == [] && s.seqState == .idle && s.fault == none && s.refusal == none

/-- A bus event is one R36 allows: a write of DATA, DIRECTION or CONTROL carries one of the block's values, 2 bytes wide. -/
def portEventLegal (c : Config) : Event → Prop
  | .wr a n v =>
    (a = c.gpioData → n = 2 ∧ (v = 1 ∨ v = 4 ∨ v = 5 ∨ v = 6 ∨ v = 7)) ∧
    (a = c.gpioDir → n = 2 ∧ (v = 7 ∨ v = 5)) ∧
    (a = c.gpioCtrl → n = 2 ∧ v = 1)
  | _ => True

/-- The configuration is well formed and the block has written the port registers only as R36 allows. -/
def PortsLegal (s : State) : Prop := s.cfg.wf = true ∧ ∀ e ∈ s.trace, portEventLegal s.cfg e

/-- The internal registers stay in the ranges R26, R27 and R31 give them, under a well-formed configuration. -/
def RegistersInRange (s : State) : Prop :=
  s.cfg.wf = true ∧ s.rxacc.getLsbD 0 = false ∧ s.bitcnt ≤ 8 ∧ s.kcnt ≤ 5 ∧ s.pageIdx ≤ 512

/-- The bracket of R175 event by event: while a DETECT is in progress between its `IeSet(false)` and its epilogue,
interrupts are disabled. -/
def BracketHolds (s : State) : Prop :=
  s.seqState = .busy → s.req.instr = .detect → 2 ≤ s.seqPc → s.seqPc ≤ detectExit s.cfg → s.ie = false

end Sys2Proof.Safety
end

