-- ==== Sys2Proof/WellFormed.lean ====
section
/-!
DEFINITION. Well-formedness of an instruction. Every operand of the eleven operations and of the wire command bytes is
legal by its type; `refused` is well formed when the decoder refuses just that encoding for just that reason (R78).
-/

namespace Sys2Proof

/-- The instruction is one the decoder can answer. -/
def Instr.wf : Instr → Bool
  | .refused why p => decode p == .refused why p
  | _ => true

end Sys2Proof
end

