-- ==== Sys2Proof/Certificates/Slice0/Obligations.lean ====
section
/-!
DEFINITION. The statements for the provers, from the numbered rules of spec/. A statement whose conclusion is
`exec i s = .next { s with … }` says an instruction's result, its completion and its frame at once: every field not named is
unchanged, the memory of paging-register bytes included.
-/

open Sys2Proof Sys2Proof.Machine Sys2Proof.Safety

/-! ## Encodings -/

/-- R81 and R71 to R76: decoding the encoding of a well-formed instruction gives it back, with every operand. -/
def Obligations.DecodeOfEncodeIsIdentity : Prop :=
  ∀ i : Instr, i.wf = true → decode (encode i) = i

/-- R81: every presented encoding decodes to one instruction or to a refusal, and no two decode alike, since the encoding can
be read back. -/
def Obligations.DecodingIsTotalAndInjective : Prop :=
  ∀ p : Presented, (decode p).wf = true ∧ encode (decode p) = p

/-- R78: a request word is accepted exactly when its operation code is 0x1 to 0xB, `MBZ` is 0, the unused immediate bits are
0, and it carries seven field bytes if it is a WRITE_DATETIME and none otherwise. -/
def Obligations.AcceptedIffRequestWellFormed : Prop :=
  ∀ (w : Word) (fs : List Byte),
    (decode (.hostWord w fs)).accepted = true ↔
      (1 ≤ w.toNat / 4096 ∧ w.toNat / 4096 ≤ 11) ∧ w.toNat / 256 % 16 = 0 ∧
      (w.toNat / 4096 ∈ [2, 4, 7, 10, 11] → w.toNat % 256 = 0) ∧
      (w.toNat / 4096 = 6 → w.toNat % 256 / 4 = 0 ∧ fs.length = 7) ∧
      (w.toNat / 4096 ≠ 6 → fs = [])

/-- A few words written out from R73's map and R75's table. -/
def Obligations.WrittenOutWordsDecode : Prop :=
  decode (.hostWord 0x1063 []) = .sendCmd 0x63 ∧ decode (.hostWord 0x2000 []) = .readByte ∧
  decode (.hostWord 0x3081 []) = .writeByte 0x81 ∧ decode (.hostWord 0x5040 []) = .writeStatus 0x40 ∧
  decode (.hostWord 0x6002 [24, 11, 12, 4, 23, 59, 0]) = .writeDatetime false true ⟨24, 11, 12, 4, 23, 59, 0⟩ ∧
  decode (.hostWord 0x803B []) = .toBcd 59 ∧ decode (.hostWord 0xA000 []) = .detect ∧
  decode (.wireByte 0x63) = .cmdMaskRead1 ∧ decode (.hostWord 0x4100 []) = .refused .nonzeroMbz (.hostWord 0x4100 [])

/-- R74: for `x` in 0..7 `MASK_READ(x)` is `{0b0110, x, 1}` and `MASK_WRITE(x)` is `{0b0110, x, 0}`; above 7 both are refused.
A wire byte presented alone is accepted exactly when its bits 7:4 are `0b0110`: that one may be presented is the model's
choice (log 1), that any other is refused its reading of R74 (log 18). -/
def Obligations.CommandByteFormulas : Prop :=
  (∀ x : BitVec 3, maskRead x.toNat = some ((0b0110 : BitVec 4) ++ x ++ (1 : BitVec 1)) ∧
    maskWrite x.toNat = some ((0b0110 : BitVec 4) ++ x ++ (0 : BitVec 1))) ∧
  (∀ x : Nat, 7 < x → maskRead x = none ∧ maskWrite x = none) ∧
  (∀ c : Byte, (decode (.wireByte c)).accepted = true ↔ c.toNat / 16 = 6)

/-! ## Steps -/

/-- A step at an Idle block whose host calls an encoding runs the decoded instruction, the host's move being taken (R34, R80;
the list of the host's moves is the model's, log 3). -/
def Obligations.StepRunsTheDecodedInstruction : Prop :=
  ∀ (s : State) (p : Presented) (rest : List HostMove), s.seqState = .idle → s.inbox = .call p :: rest →
    step s = exec (decode p) { s with inbox := rest }

/-- A word placed as the host's next call is run by the very next step (log 3). -/
def Obligations.PlacedWordRunsNext : Prop :=
  ∀ (s : State) (nbits w : Nat) (i : Instr), decodeTableWord nbits w = some i →
    step (s.withFetchWord nbits w) = exec i { s with seqState := .idle }

/-- R80 and R79, acceptance: `REQ <- request`, `SEQ_PC <- 0`, `SEQ_STATE <- Busy`, no event, in one step; an encoding that is
not well formed is not accepted and sets the refusal mark. Model's choices: the list of the host's moves (log 3), a wire
command byte presented alone, latched as SEND_CMD of it (log 1), a wire byte outside R74's layout refused (log 18). -/
def Obligations.PresentedRequestIsAccepted : Prop :=
  ∀ (s : State) (p : Presented) (rest : List HostMove), s.seqState = .idle → s.inbox = .present p :: rest →
    (∀ w fs, p = .hostWord w fs → (decode p).accepted = true →
      step s = .next { s with
        inbox := rest, req := ⟨w.extractLsb' 12 4, w.extractLsb' 0 8, fs⟩, seqPc := 0, seqState := .busy }) ∧
    (∀ c, p = .wireByte c → (decode p).accepted = true →
      step s = .next { s with inbox := rest, req := ⟨0x1, c, []⟩, seqPc := 0, seqState := .busy }) ∧
    ((decode p).accepted = false →
      step s = .next { s with inbox := rest, refusal := some .refusedEncoding })

/-- R79: a request word that is not well formed decodes to `refused`, and that has no event, leaves every register unchanged
and sets the refusal mark; the operation codes 0x0 and 0xC to 0xF are reserved. That the machine goes on in a next state is
log 2's reading, and that such an operation code is the reason named, whatever else is wrong with the word, log 18's. -/
def Obligations.RefusedWordOnlySetsTheMark : Prop :=
  (∀ (s : State) (why : Reject) (p : Presented), s.seqState = .idle →
    exec (.refused why p) s = .next { s with refusal := some .refusedEncoding }) ∧
  (∀ (s : State) (w : Word) (fs : List Byte), s.seqState = .idle → (decode (.hostWord w fs)).accepted = false →
    exec (decode (.hostWord w fs)) s = .next { s with refusal := some .refusedEncoding }) ∧
  (∀ (w : Word) (fs : List Byte), w.toNat / 4096 = 0 ∨ 12 ≤ w.toNat / 4096 →
    decode (.hostWord w fs) = .refused .reservedOp (.hostWord w fs))

/-- R20 and R24: while Busy with events left and no reset due, a step is exactly one event; `SEQ_PC` advances by one, or a
matching probe of DETECT moves it to the epilogue; `REQ`, the deliveries and the host's moves stand. -/
def Obligations.BusyStepIsOneEvent : Prop :=
  ∀ s : State, s.seqState = .busy → s.req.instr.accepted = true → operandFault s.req.instr = none →
    (∀ n rest, s.inbox = .reset n :: rest → s.seqPc < n) → s.seqPc < (programOf s.cfg s.req.instr).length →
    ∃ t e, step s = .next t ∧ t.trace = s.trace ++ [e] ∧ t.seqState = .busy ∧ t.req = s.req ∧
      t.delivered = s.delivered ∧ t.inbox = s.inbox ∧
      (t.seqPc = s.seqPc + 1 ∨
        s.req.instr = .detect ∧ t.matched = true ∧ t.seqPc = detectExit s.cfg)

/-- R80: after the last event the operation returns: Idle, and one pair delivered to the host (that the return is a step of
its own, without an event, is the model's, log 4). -/
def Obligations.BusyStepAfterLastEventReturns : Prop :=
  ∀ s : State, s.seqState = .busy → s.req.instr.accepted = true → operandFault s.req.instr = none →
    (∀ n rest, s.inbox = .reset n :: rest → s.seqPc < n) → (programOf s.cfg s.req.instr).length ≤ s.seqPc →
    ∃ t c, step s = .next t ∧ t.trace = s.trace ∧ t.seqState = .idle ∧ t.inbox = s.inbox ∧
      t.delivered = s.delivered ++ [⟨s.req, c⟩] ∧ ∀ m, c ≠ .fault m

/-- R34: the operation as one call and the operation accepted and run one event a step give the same state: the same result,
the same deliveries and the same events, whatever the oracle answers. -/
def Obligations.CallEqualsEventByEventRun : Prop :=
  ∀ (s : State) (p : Presented), s.seqState = .idle → (decode p).accepted = true →
    ∃ t : State, step { s with inbox := [.call p] } = .next t ∧
      Host.Core.run Sys2Proof.core (t.trace.length - s.trace.length + 2) { s with inbox := [.present p] } = .next t

/-- R220: a reset, at once when Idle and inside an operation once due, leaves the block Idle with no event and no result
delivered; what the operation did to the trace and to the external registers stands, and so do the marks. -/
def Obligations.ResetAbandonsTheOperation : Prop :=
  ∀ (s : State) (n : Nat) (rest : List HostMove), s.inbox = .reset n :: rest → s.seqState = .idle ∨ n ≤ s.seqPc →
    ∃ t, step s = .next t ∧ t.seqState = .idle ∧ t.trace = s.trace ∧ t.delivered = s.delivered ∧ t.inbox = rest ∧
      t.data = s.data ∧ t.direction = s.direction ∧ t.control = s.control ∧ t.ie = s.ie ∧ t.page = s.page ∧
      t.pagingMode = s.pagingMode ∧ t.passthrough = s.passthrough ∧ t.mem = s.mem ∧ t.fault = s.fault ∧
      t.refusal = s.refusal ∧ t.cfg = s.cfg

/-- R22 and R206: while Busy no request is taken: a step leaves the host's moves alone unless a reset is due, and a meaning
asked for then is refused (that it is refused, and its name, is the model's, log 14). -/
def Obligations.BusyBlockTakesNoRequest : Prop :=
  (∀ (s t : State), s.seqState = .busy → (∀ n rest, s.inbox = .reset n :: rest → s.seqPc < n) →
    step s = .next t → t.inbox = s.inbox) ∧
  (∀ (i : Instr) (s : State), s.seqState = .busy → exec i s = .refused .busy)

/-- R220 and R234: with no move of the host an Idle block waits (as a step that changes nothing: the model's, log 3). -/
def Obligations.IdleBlockWaits : Prop :=
  ∀ s : State, s.seqState = .idle → s.inbox = [] → step s = .next s

/-! ## The bare bus operations and the wire command bytes -/

/-- R107: SEND_CMD `0x10cc` shifts the eight bits of `c` out, bit 7 first, `K_CMD` knocks and a commit each; no wake, no
DIRECTION write, no result, no exception, `8 * (K_CMD + 1)` events. The loop counters end anywhere in their ranges (R27). -/
def Obligations.SendCmdShiftsOutMsbFirst : Prop :=
  ∀ (c : Byte) (s : State), decode (.hostWord ((0x10 : Byte) ++ c) []) = .sendCmd c ∧
    (s.seqState = .idle →
      ∃ bits knocks, bits ≤ 8 ∧ knocks ≤ 5 ∧
        exec (.sendCmd c) s = .next { s with
          req := ⟨0x1, c, []⟩, seqPc := 8 * (s.cfg.kCmd + 1), txsr := c, bitcnt := bits, kcnt := knocks
          data := if c.getLsbD 0 then 7 else 5, trace := s.trace ++ commandEvents s.cfg c
          delivered := s.delivered ++ [⟨⟨0x1, c, []⟩, .done⟩] })

/-- R109: WRITE_BYTE `0x30vv` shifts the eight bits of `v` out, bit 0 first, `K_WRITE` knocks and a commit each. The loop
counters end anywhere in their ranges (R27). -/
def Obligations.WriteByteShiftsOutLsbFirst : Prop :=
  ∀ (v : Byte) (s : State), decode (.hostWord ((0x30 : Byte) ++ v) []) = .writeByte v ∧
    (s.seqState = .idle →
      ∃ bits knocks, bits ≤ 8 ∧ knocks ≤ 5 ∧
        exec (.writeByte v) s = .next { s with
          req := ⟨0x3, v, []⟩, seqPc := 8 * (s.cfg.kWrite + 1), txsr := v, bitcnt := bits, kcnt := knocks
          data := if v.getLsbD 7 then 7 else 5, trace := s.trace ++ byteEvents s.cfg v
          delivered := s.delivered ++ [⟨⟨0x3, v, []⟩, .done⟩] })

/-- R111: READ_BYTE `0x2000` performs eight read slots; the result is the byte of their samples' line P1, first sample first,
`RXACC` is twice it. The samples are whatever the oracle answered (R40), the loop counters end anywhere in their ranges. -/
def Obligations.ReadByteShiftsInMsbFirst : Prop :=
  decode (.hostWord 0x2000 []) = .readByte ∧
  ∀ s : State, s.seqState = .idle →
    ∃ (rs : List Word) (bits knocks : Nat) (rest : List Word) (drawn : Nat), rs.length = 8 ∧ bits ≤ 8 ∧ knocks ≤ 5 ∧
      exec .readByte s = .next { s with
        req := ⟨0x2, 0, []⟩, seqPc := 8 * (s.cfg.kRead + 2), rxacc := BitVec.ofNat 9 (2 * sampledValue rs)
        bitcnt := bits, kcnt := knocks, data := 5, trace := s.trace ++ readEvents s.cfg rs
        result := .byte (BitVec.ofNat 8 (sampledValue rs)), answers := rest, draws := drawn
        delivered := s.delivered ++ [⟨⟨0x2, 0, []⟩, .result (.byte (BitVec.ofNat 8 (sampledValue rs)))⟩] }

/-- The samples of a READ_BYTE are the next eight of the oracle's answers, which it uses up (that they stand in a list is
log 5's). -/
def Obligations.SamplesAreTheNextAnswers : Prop :=
  ∀ s : State, s.seqState = .idle → 8 ≤ s.answers.length →
    ∃ t, exec .readByte s = .next t ∧ t.trace = s.trace ++ readEvents s.cfg (s.answers.take 8) ∧
      t.result = .byte (BitVec.ofNat 8 (sampledValue (s.answers.take 8))) ∧ t.answers = s.answers.drop 8 ∧
      t.draws = s.draws + 8

/-- R74 and R75: each of the sixteen wire command bytes is shifted out whole, as SEND_CMD of that byte (that a bare command
byte means its shift-out is the model's reading, log 1). -/
def Obligations.WireCommandBytesAreShiftedOut : Prop :=
  ∀ s : State, s.seqState = .idle →
    ∀ q ∈ ([(.cmdMaskWrite0, 0x60), (.cmdMaskRead0, 0x61), (.cmdMaskWrite1, 0x62), (.cmdMaskRead1, 0x63),
        (.cmdMaskWrite2, 0x64), (.cmdMaskRead2, 0x65), (.cmdMaskWrite3, 0x66), (.cmdMaskRead3, 0x67),
        (.cmdMaskWrite4, 0x68), (.cmdMaskRead4, 0x69), (.cmdMaskWrite5, 0x6A), (.cmdMaskRead5, 0x6B),
        (.cmdMaskWrite6, 0x6C), (.cmdMaskRead6, 0x6D), (.cmdMaskWrite7, 0x6E), (.cmdMaskRead7, 0x6F)] : List (Instr × Byte)),
      decode (.wireByte q.2) = q.1 ∧
      ∃ bits knocks, bits ≤ 8 ∧ knocks ≤ 5 ∧
        exec q.1 s = .next { s with
          req := ⟨0x1, q.2, []⟩, seqPc := 8 * (s.cfg.kCmd + 1), txsr := q.2, bitcnt := bits, kcnt := knocks
          data := if q.2.getLsbD 0 then 7 else 5, trace := s.trace ++ commandEvents s.cfg q.2
          delivered := s.delivered ++ [⟨⟨0x1, q.2, []⟩, .done⟩] }

/-! ## Chip-level transactions -/

/-- R131: READ_STATUS `0x4000`: wake, command 0x63, DIRECTION <- 5, one byte read; the result is that byte and DIRECTION is
left at `0b101`. The samples are whatever the oracle answered (R40), the loop counters end anywhere in their ranges (R27). -/
def Obligations.ReadStatusTransaction : Prop :=
  decode (.hostWord 0x4000 []) = .readStatus ∧
  ∀ s : State, s.seqState = .idle →
    ∃ (rs : List Word) (bits knocks : Nat) (rest : List Word) (drawn : Nat), rs.length = 8 ∧ bits ≤ 8 ∧ knocks ≤ 5 ∧
      exec .readStatus s = .next { s with
        req := ⟨0x4, 0, []⟩, seqPc := 4 + 8 * (s.cfg.kCmd + 1) + 1 + 8 * (s.cfg.kRead + 2), txsr := 0x63
        rxacc := BitVec.ofNat 9 (2 * sampledValue rs), bitcnt := bits, kcnt := knocks, control := 1, data := 5
        direction := 5
        trace := s.trace ++ wakeEvents s.cfg ++ commandEvents s.cfg 0x63 ++ [.wr s.cfg.gpioDir 2 5] ++
          readEvents s.cfg rs
        result := .byte (BitVec.ofNat 8 (sampledValue rs)), answers := rest, draws := drawn
        delivered := s.delivered ++ [⟨⟨0x4, 0, []⟩, .result (.byte (BitVec.ofNat 8 (sampledValue rs)))⟩] }

/-- R132: WRITE_STATUS `0x50vv`: wake, command 0x62, the byte as given, bit 0 first. The loop counters end anywhere in their
ranges (R27). -/
def Obligations.WriteStatusTransaction : Prop :=
  ∀ (v : Byte) (s : State), decode (.hostWord ((0x50 : Byte) ++ v) []) = .writeStatus v ∧
    (s.seqState = .idle →
      ∃ bits knocks, bits ≤ 8 ∧ knocks ≤ 5 ∧
        exec (.writeStatus v) s = .next { s with
          req := ⟨0x5, v, []⟩, seqPc := 4 + 8 * (s.cfg.kCmd + 1) + 8 * (s.cfg.kWrite + 1), txsr := v
          bitcnt := bits, kcnt := knocks, control := 1, data := if v.getLsbD 7 then 7 else 5, direction := 7
          trace := s.trace ++ wakeEvents s.cfg ++ commandEvents s.cfg 0x62 ++ byteEvents s.cfg v
          delivered := s.delivered ++ [⟨⟨0x5, v, []⟩, .done⟩] })

/-- R133 and R134: WRITE_DATETIME `0x600f` with seven fields. With every field at most 99: wake, command 0x64, the seven BCD
bytes in order, the hour byte with bit 7 ORed in when, and only when, `MODE12` and `PM` are set; no calendar check. Otherwise,
field `j` of value `v` being the one of lowest index above 99: fault `F_BCD_RANGE` with them, before any event, `FAULT`
keeping the first fault of the run. The loop counters end anywhere in their ranges (R27). -/
def Obligations.WriteDatetimeTransaction : Prop :=
  ∀ (mode12 pm : Bool) (f : DateTimeFields) (imm : Byte) (fs : List Byte) (s : State) (bcd : Byte → Byte),
    imm = (if pm then 2 else 0) + (if mode12 then 1 else 0) →
    fs = [f.year, f.month, f.day, f.dayOfWeek, f.hour, f.minute, f.second] →
    (∀ n, bcd n = BitVec.ofNat 8 (16 * (n.toNat / 10) + n.toNat % 10)) →
    decode (.hostWord ((0x60 : Byte) ++ imm) fs) = .writeDatetime mode12 pm f ∧
    (s.seqState = .idle → (∀ v ∈ fs, v.toNat ≤ 99) →
      ∃ bits knocks, bits ≤ 8 ∧ knocks ≤ 5 ∧
        exec (.writeDatetime mode12 pm f) s = .next { s with
          req := ⟨0x6, imm, fs⟩, seqPc := 4 + 8 * (s.cfg.kCmd + 1) + 56 * (s.cfg.kWrite + 1), txsr := bcd f.second
          bitcnt := bits, kcnt := knocks, control := 1, data := if (bcd f.second).getLsbD 7 then 7 else 5
          direction := 7
          trace := s.trace ++ wakeEvents s.cfg ++ commandEvents s.cfg 0x64 ++
            [bcd f.year, bcd f.month, bcd f.day, bcd f.dayOfWeek,
              if mode12 = true ∧ pm = true then bcd f.hour ||| 0x80 else bcd f.hour, bcd f.minute,
              bcd f.second].flatMap (byteEvents s.cfg)
          delivered := s.delivered ++ [⟨⟨0x6, imm, fs⟩, .done⟩] }) ∧
    (s.seqState = .idle → ∀ (j : Nat) (v : Byte), fs[j]? = some v → 99 < v.toNat →
      (∀ k < j, ∀ u, fs[k]? = some u → u.toNat ≤ 99) →
      exec (.writeDatetime mode12 pm f) s = .next { s with
        req := ⟨0x6, imm, fs⟩, seqPc := 0, fault := some (s.fault.getD ⟨.bcdRange, 0x6, v, some j⟩)
        delivered := s.delivered ++ [⟨⟨0x6, imm, fs⟩, .fault ⟨.bcdRange, 0x6, v, some j⟩⟩] })

/-- R135: RESET_CHIP `0x7000`: wake, command 0x61, one extra knock DATA <- 4; no byte is read. The loop counters end anywhere
in their ranges (R27). -/
def Obligations.ResetChipTransaction : Prop :=
  decode (.hostWord 0x7000 []) = .resetChip ∧
  ∀ s : State, s.seqState = .idle →
    ∃ bits knocks, bits ≤ 8 ∧ knocks ≤ 5 ∧
      exec .resetChip s = .next { s with
        req := ⟨0x7, 0, []⟩, seqPc := 4 + 8 * (s.cfg.kCmd + 1) + 1, txsr := 0x61, bitcnt := bits, kcnt := knocks
        control := 1, data := 4, direction := 7
        trace := s.trace ++ wakeEvents s.cfg ++ commandEvents s.cfg 0x61 ++ [dataWr s.cfg 4]
        delivered := s.delivered ++ [⟨⟨0x7, 0, []⟩, .done⟩] }

/-- R137: how many events each chip-level transaction has. -/
def Obligations.TransactionEventCounts : Prop :=
  ∀ s : State, s.seqState = .idle →
    (∃ t, exec .readStatus s = .next t ∧
      t.trace.length = s.trace.length + (4 + 8 * (s.cfg.kCmd + 1) + 1 + 8 * (s.cfg.kRead + 2))) ∧
    (∀ v, ∃ t, exec (.writeStatus v) s = .next t ∧
      t.trace.length = s.trace.length + (4 + 8 * (s.cfg.kCmd + 1) + 8 * (s.cfg.kWrite + 1))) ∧
    (∀ mode12 pm f, (∀ v ∈ DateTimeFields.toList f, v.toNat ≤ 99) →
      ∃ t, exec (.writeDatetime mode12 pm f) s = .next t ∧
        t.trace.length = s.trace.length + (4 + 8 * (s.cfg.kCmd + 1) + 56 * (s.cfg.kWrite + 1))) ∧
    (∃ t, exec .resetChip s = .next t ∧ t.trace.length = s.trace.length + (4 + 8 * (s.cfg.kCmd + 1) + 1))

/-- R227: after READ_STATUS line P1 is released to the chip, after any other transaction it is driven; the bare operations
leave DIRECTION as it was. -/
def Obligations.DirectionAfterEachOperation : Prop :=
  ∀ s : State, s.seqState = .idle →
    (∃ t, exec .readStatus s = .next t ∧ p1Released t) ∧
    (∀ v, ∃ t, exec (.writeStatus v) s = .next t ∧ p1Driven t) ∧
    (∀ mode12 pm f, (∀ v ∈ DateTimeFields.toList f, v.toNat ≤ 99) →
      ∃ t, exec (.writeDatetime mode12 pm f) s = .next t ∧ p1Driven t) ∧
    (∃ t, exec .resetChip s = .next t ∧ p1Driven t) ∧
    (∀ v, ∃ t, exec (.sendCmd v) s = .next t ∧ t.direction = s.direction) ∧
    (∀ v, ∃ t, exec (.writeByte v) s = .next t ∧ t.direction = s.direction) ∧
    (∃ t, exec .readByte s = .next t ∧ t.direction = s.direction)

/-! ## BCD -/

/-- R151: TO_BCD `0x80nn` of a value 0..99 returns its two decimal digits in the two nibbles, with no event; above 99 it faults
`F_BCD_RANGE`, recording the operation code and the value, the first fault of the run staying in `FAULT` (R33). -/
def Obligations.ToBcdEncodesOrFaults : Prop :=
  ∀ (n : Byte) (s : State), decode (.hostWord ((0x80 : Byte) ++ n) []) = .toBcd n ∧
    (s.seqState = .idle → n.toNat ≤ 99 →
      exec (.toBcd n) s = .next { s with
        req := ⟨0x8, n, []⟩, seqPc := 0, result := .byte (BitVec.ofNat 8 (16 * (n.toNat / 10) + n.toNat % 10))
        delivered := s.delivered ++
          [⟨⟨0x8, n, []⟩, .result (.byte (BitVec.ofNat 8 (16 * (n.toNat / 10) + n.toNat % 10)))⟩] }) ∧
    (s.seqState = .idle → 99 < n.toNat →
      exec (.toBcd n) s = .next { s with
        req := ⟨0x8, n, []⟩, seqPc := 0, fault := some (s.fault.getD ⟨.bcdRange, 0x8, n, none⟩)
        delivered := s.delivered ++ [⟨⟨0x8, n, []⟩, .fault ⟨.bcdRange, 0x8, n, none⟩⟩] })

/-- R152: FROM_BCD `0x90bb` of a byte with both nibbles 0..9 returns the number they spell, with no event; with a nibble above
9 it faults `F_BCD_DIGIT`, recording the operation code and the byte, the first fault of the run staying in `FAULT` (R33). -/
def Obligations.FromBcdDecodesOrFaults : Prop :=
  ∀ (b : Byte) (s : State), decode (.hostWord ((0x90 : Byte) ++ b) []) = .fromBcd b ∧
    (s.seqState = .idle → b.toNat / 16 ≤ 9 → b.toNat % 16 ≤ 9 →
      exec (.fromBcd b) s = .next { s with
        req := ⟨0x9, b, []⟩, seqPc := 0, result := .byte (BitVec.ofNat 8 (b.toNat / 16 * 10 + b.toNat % 16))
        delivered := s.delivered ++
          [⟨⟨0x9, b, []⟩, .result (.byte (BitVec.ofNat 8 (b.toNat / 16 * 10 + b.toNat % 16)))⟩] }) ∧
    (s.seqState = .idle → 9 < b.toNat / 16 ∨ 9 < b.toNat % 16 →
      exec (.fromBcd b) s = .next { s with
        req := ⟨0x9, b, []⟩, seqPc := 0, fault := some (s.fault.getD ⟨.bcdDigit, 0x9, b, none⟩)
        delivered := s.delivered ++ [⟨⟨0x9, b, []⟩, .fault ⟨.bcdDigit, 0x9, b, none⟩⟩] })

/-- R154: the two codec functions are inverse to each other on 0..99 and on the bytes of two decimal digits; `TO_BCD_FN` is
injective there and its image is those bytes. -/
def Obligations.BcdRoundTrips : Prop :=
  (∀ n : Byte, n.toNat ≤ 99 → (toBcdFn n).bind fromBcdFn = some n) ∧
  (∀ b : Byte, b.toNat / 16 ≤ 9 → b.toNat % 16 ≤ 9 → (fromBcdFn b).bind toBcdFn = some b) ∧
  (∀ n m : Byte, n.toNat ≤ 99 → m.toNat ≤ 99 → toBcdFn n = toBcdFn m → n = m) ∧
  (∀ b : Byte, (∃ n : Byte, toBcdFn n = some b) ↔ b.toNat / 16 ≤ 9 ∧ b.toNat % 16 ≤ 9)

/-! ## The aliasing detector -/

/-- R172 and R173: DETECT `0xA000` reads the reference, then selects and probes the bootloader, PSRAM and flash pages in
order until the first non-bootloader match; the result and `MATCH` say whether the last probe matched; `IE` ends as it was.
Model's choices: the values are the oracle's next answers (log 5), the commanded page (log 10), the memory of paging-register
bytes (log 11), when `PAGE_IDX` changes (log 12), and the one epilogue `SEQ_PC` ends after (log 13). -/
def Obligations.DetectProbesUntilFirstMatch : Prop :=
  decode (.hostWord 0xA000 []) = .detect ∧
  ∀ s : State, s.seqState = .idle →
    ∃ (ref : Byte) (vs : List Byte) (hit : Bool),
      2 ≤ vs.length ∧ vs.length ≤ 2 + s.cfg.flashPages.length ∧
      (s.answers.take (1 + vs.length)).map (BitVec.setWidth 8) <+: ref :: vs ∧
      (∀ k, 1 ≤ k → k + 1 < vs.length → vs[k]? ≠ some ref) ∧
      (hit = true ↔ vs.getLast? = some ref) ∧
      (hit = false → vs.length = 2 + s.cfg.flashPages.length) ∧
      exec .detect s = .next { s with
        req := ⟨0xA, 0, []⟩, seqPc := detectExit s.cfg + 1, refSum := ref, matched := hit, ieSaved := s.ie
        pageIdx := if vs.length = 2 then s.pageIdx else vs.length - 3
        page := (((probedPages s.cfg).take vs.length).filter fun p => !(s.cfg.pageSeq p).isEmpty).getLast?.getD s.page
        mem := writeAll s.mem (((probedPages s.cfg).take vs.length).flatMap s.cfg.pageSeq)
        trace := s.trace ++ detectEvents s.cfg s.ie ref vs
        result := .flag hit, answers := s.answers.drop (1 + vs.length), draws := s.draws + (1 + vs.length)
        delivered := s.delivered ++ [⟨⟨0xA, 0, []⟩, .result (.flag hit)⟩] }

/-- R174: with `vs` the values of the probes performed, no more of them than pages, DETECT returns true if and only if one
other than the bootloader's equals the reference, and then the probes performed are those up to and including the first
such; the bootloader value never affects the result. -/
def Obligations.DetectResultLaw : Prop :=
  ∀ s : State, s.seqState = .idle →
    ∃ (t : State) (ref : Byte) (vs : List Byte),
      exec .detect s = .next t ∧ t.trace = s.trace ++ detectEvents s.cfg s.ie ref vs ∧
      2 ≤ vs.length ∧ vs.length ≤ 2 + s.cfg.flashPages.length ∧
      (t.result = .flag true ∨ t.result = .flag false) ∧
      (t.result = .flag true ↔ ∃ k, 1 ≤ k ∧ vs[k]? = some ref) ∧
      (t.result = .flag true → ∀ k, 1 ≤ k → vs[k]? = some ref → k + 1 = vs.length) ∧
      (t.result = .flag false → vs.length = 2 + s.cfg.flashPages.length)

/-- R175: DETECT's last event restores `IE` to its value on entry, its first two read it and disable interrupts, and no access
between them touches it, so all of those are performed with interrupts disabled. -/
def Obligations.DetectRestoresInterruptEnable : Prop :=
  ∀ s : State, s.seqState = .idle →
    ∃ (t : State) (mid : List Event), exec .detect s = .next t ∧ t.ie = s.ie ∧
      t.trace = s.trace ++ [.ieRd s.ie, .ieWr false] ++ mid ++ [.ieWr s.ie] ∧
      ∀ e ∈ mid, ∀ b, e ≠ .ieWr b ∧ e ≠ .ieRd b

/-- R176: with `vs` the values of the probes performed, DETECT has 3 events, `L_p + 1` for each of the `vs.length` pages
probed, and 1: two pages at the exit after the PSRAM page, `i + 3` after flash page `i`, all of them without a match; at most
`4 + (N_FLASH + 2) * (L + 1)` when every sequence has at most `L` writes. -/
def Obligations.DetectEventCounts : Prop :=
  ∀ s : State, s.seqState = .idle →
    ∃ (t : State) (ref : Byte) (vs : List Byte),
      exec .detect s = .next t ∧ t.trace = s.trace ++ detectEvents s.cfg s.ie ref vs ∧
      2 ≤ vs.length ∧ vs.length ≤ 2 + s.cfg.flashPages.length ∧
      (t.result = .flag true ∨ t.result = .flag false) ∧
      (t.result = .flag true → vs.getLast? = some ref) ∧
      (t.result = .flag false → vs.length = 2 + s.cfg.flashPages.length) ∧
      t.trace.length = s.trace.length +
        (3 + (((probedPages s.cfg).take vs.length).map fun p => (s.cfg.pageSeq p).length + 1).sum + 1) ∧
      ∀ L, (∀ p ∈ probedPages s.cfg, (s.cfg.pageSeq p).length ≤ L) →
        t.trace.length ≤ s.trace.length + (4 + (s.cfg.flashPages.length + 2) * (L + 1))

/-- R172: with no assumption on the cartridge both results of DETECT are possible. -/
def Obligations.DetectBothResultsPossible : Prop :=
  ∀ s : State, s.seqState = .idle →
    (∃ as t, exec .detect { s with answers := as } = .next t ∧ t.result = .flag true) ∧
    (∃ as t, exec .detect { s with answers := as } = .next t ∧ t.result = .flag false)

/-- R178: DETECT restores no page: the commanded page afterwards is the last one selected, the matching page on a true result,
and on a false one `FLASH_PAGE(N_FLASH - 1)`, or `PSRAM_PAGE` when `N_FLASH` is 0. Only where the page sequences are not
empty: an empty one commands nothing (log 10). -/
def Obligations.DetectLeavesLastSelectedPage : Prop :=
  ∀ s : State, s.seqState = .idle → (∀ p ∈ probedPages s.cfg, s.cfg.pageSeq p ≠ []) →
    ∃ (t : State) (ref : Byte) (vs : List Byte),
      exec .detect s = .next t ∧ t.trace = s.trace ++ detectEvents s.cfg s.ie ref vs ∧ 2 ≤ vs.length ∧
      (probedPages s.cfg)[vs.length - 1]? = some t.page ∧
      (t.result = .flag true → vs[vs.length - 1]? = some ref) ∧
      (t.result = .flag false → t.page = s.cfg.flashPages.getLast?.getD s.cfg.psramPage)

/-- R177: ENABLE_ALT `0xB000` selects the kernel page twice and performs the `RTC_EN` write; no read, no access of `IE`,
`2 * L_KERNEL + 1` events. What the paging controller then holds is not said here. -/
def Obligations.EnableAltSelectsKernelPageTwice : Prop :=
  decode (.hostWord 0xB000 []) = .enableAlt ∧
  ∀ s : State, s.seqState = .idle →
    ∃ (page : Nat) (mode : PagingMode) (passthrough : Bool) (mem : List Host.Cell),
      exec .enableAlt s = .next { s with
        req := ⟨0xB, 0, []⟩, seqPc := 2 * (s.cfg.pageSeq s.cfg.kernelPage).length + 1
        page := page, pagingMode := mode, passthrough := passthrough, mem := mem
        trace := s.trace ++ pageEvents s.cfg s.cfg.kernelPage ++ pageEvents s.cfg s.cfg.kernelPage ++
          [.wr s.cfg.rtcEn.addr s.cfg.rtcEn.width s.cfg.rtcEn.value]
        delivered := s.delivered ++ [⟨⟨0xB, 0, []⟩, .done⟩] }

/-- What ENABLE_ALT commands the paging controller to: the kernel page and kernel mode (a select with no writes commands
nothing) and the passthrough, by log 10's reading of R38 and R177; and the register bytes it leaves, log 11's. -/
def Obligations.EnableAltCommandsKernelMode : Prop :=
  ∀ s : State, s.seqState = .idle →
    ∃ t, exec .enableAlt s = .next t ∧ t.passthrough = true ∧
      t.page = (if s.cfg.pageSeq s.cfg.kernelPage = [] then s.page else s.cfg.kernelPage) ∧
      t.pagingMode = (if s.cfg.pageSeq s.cfg.kernelPage = [] then s.pagingMode else .kernel) ∧
      t.mem = writeAll s.mem
        (s.cfg.pageSeq s.cfg.kernelPage ++ s.cfg.pageSeq s.cfg.kernelPage ++ [s.cfg.rtcEn])

/-! ## Frames -/

/-- The operations on the three-wire port, the wire command bytes among them, touch neither the paging controller nor `IE`
nor the detector's registers, nor any byte of memory; the bare ones touch neither DIRECTION nor CONTROL. -/
def Obligations.SerialOperationsFrame : Prop :=
  ∀ (i : Instr) (s t : State),
    (match i with
      | .toBcd _ | .fromBcd _ | .detect | .enableAlt | .refused _ _ => False
      | _ => True) →
    exec i s = .next t →
      t.refSum = s.refSum ∧ t.matched = s.matched ∧ t.pageIdx = s.pageIdx ∧ t.ieSaved = s.ieSaved ∧
      t.refusal = s.refusal ∧ t.ie = s.ie ∧ t.page = s.page ∧ t.pagingMode = s.pagingMode ∧
      t.passthrough = s.passthrough ∧ (∀ a, Memory.read t.mem a = Memory.read s.mem a) ∧ t.inbox = s.inbox ∧
      t.cfg = s.cfg ∧
      (match i with
        | .readStatus | .writeStatus _ | .writeDatetime _ _ _ | .resetChip => True
        | _ => t.direction = s.direction ∧ t.control = s.control) ∧
      (match i with
        | .readStatus | .readByte => True
        | _ => t.rxacc = s.rxacc ∧ t.result = s.result ∧ t.answers = s.answers ∧ t.draws = s.draws)

/-- DETECT and ENABLE_ALT touch none of the three port registers, no shift register and no counter of the shifter; the bytes
of memory they change are those that the writes of the page sequences they perform, and of `RTC_EN`, store to. -/
def Obligations.DetectorOperationsFrame : Prop :=
  (∀ s t : State, exec .detect s = .next t ∨ exec .enableAlt s = .next t →
    t.data = s.data ∧ t.direction = s.direction ∧ t.control = s.control ∧ t.txsr = s.txsr ∧ t.rxacc = s.rxacc ∧
    t.bitcnt = s.bitcnt ∧ t.kcnt = s.kcnt ∧ t.fault = s.fault ∧ t.refusal = s.refusal ∧ t.ie = s.ie ∧
    t.inbox = s.inbox ∧ t.cfg = s.cfg) ∧
  (∀ s t : State, exec .detect s = .next t → t.pagingMode = s.pagingMode ∧ t.passthrough = s.passthrough ∧
    ∀ a, (∀ p ∈ probedPages s.cfg, ∀ w ∈ s.cfg.pageSeq p, ¬ stored w a) →
      Memory.read t.mem a = Memory.read s.mem a) ∧
  (∀ s t : State, exec .enableAlt s = .next t →
    t.result = s.result ∧ t.refSum = s.refSum ∧ t.matched = s.matched ∧ t.pageIdx = s.pageIdx ∧
    t.ieSaved = s.ieSaved ∧ t.answers = s.answers ∧ t.draws = s.draws ∧
    ∀ a, (∀ w ∈ s.cfg.pageSeq s.cfg.kernelPage, ¬ stored w a) → ¬ stored s.cfg.rtcEn a →
      Memory.read t.mem a = Memory.read s.mem a)

/-- ENABLE_ALT leaves the value of `RTC_EN` at its address, least significant byte first (the byte order is R52's choice for a
model that lays bytes out, and the memory log 11's). -/
def Obligations.EnableAltStoresRtcEnableValue : Prop :=
  ∀ s t : State, Memory.wf s.mem = true → exec .enableAlt s = .next t →
    ∀ k < s.cfg.rtcEn.width,
      Memory.read t.mem (s.cfg.rtcEn.addr + k) = BitVec.ofNat 8 (s.cfg.rtcEn.value / 256 ^ k)

/-! ## Faults and marks -/

/-- R33: `FAULT` is clear at the start of a run and no step, a reset included, clears or changes it once set. -/
def Obligations.FaultMarkIsSticky : Prop :=
  (∀ c, (State.boot c).fault = none) ∧
  ∀ (s t : State) (m : FaultMark), s.fault = some m → step s = .next t → t.fault = some m

/-- R203: the refusal mark is kept for the whole run. -/
def Obligations.RefusalMarkIsKept : Prop :=
  ∀ (s t : State) (m : RefusalMark), s.refusal = some m → step s = .next t → t.refusal = some m

/-- R201: no operation but TO_BCD, FROM_BCD and WRITE_DATETIME can fault: the others leave `FAULT` alone and deliver no
fault. -/
def Obligations.OnlyThreeOperationsFault : Prop :=
  ∀ (i : Instr) (s t : State),
    (match i with
      | .toBcd _ | .fromBcd _ | .writeDatetime _ _ _ => False
      | _ => True) →
    exec i s = .next t →
      t.fault = s.fault ∧ ∀ d ∈ t.delivered, d ∈ s.delivered ∨ ∀ m, d.outcome ≠ .fault m

/-- R204: an operation that faults leaves the event trace, the three port registers and `IE` exactly as they were; and whether
it faults, and with what, depends only on the request: called at any other Idle block it faults in the same way. -/
def Obligations.FaultingOperationHasNoEvent : Prop :=
  ∀ (i : Instr) (s t : State) (r : Req) (m : FaultMark), exec i s = .next t →
    t.delivered = s.delivered ++ [⟨r, .fault m⟩] →
    (t.trace = s.trace ∧ t.data = s.data ∧ t.direction = s.direction ∧ t.control = s.control ∧ t.ie = s.ie) ∧
    ∀ s' : State, s'.seqState = .idle →
      ∃ t', exec i s' = .next t' ∧ t'.delivered = s'.delivered ++ [⟨r, .fault m⟩] ∧ t'.trace = s'.trace

/-! ## Invariants of every step -/

/-- The memory of paging-register bytes keeps its canonical form (log 11). -/
def Obligations.StepKeepsMemoryCanonical : Prop :=
  ∀ s t : State, Memory.wf s.mem = true → step s = .next t → Memory.wf t.mem = true

def Obligations.ResetMemoryCanonical : Prop := Memory.wf State.reset.mem = true

/-- R36: the block writes DATA, DIRECTION and CONTROL with the values R36 lists and with no other, 2 bytes wide. -/
def Obligations.StepKeepsPortWritesLegal : Prop :=
  ∀ s t : State, PortsLegal s → step s = .next t → PortsLegal t

/-- The invariant of R36 holds right after reset; that the configuration of `State.reset` is well formed is log 6's choice. -/
def Obligations.ResetPortWritesLegal : Prop := PortsLegal State.reset

/-- R26, R27 and R31: `RXACC[0]` is always 0, `BITCNT` stays in 0..8, `KCNT` in 0..5, `PAGE_IDX` in 0..512. -/
def Obligations.StepKeepsRegistersInRange : Prop :=
  ∀ s t : State, RegistersInRange s → step s = .next t → RegistersInRange t

/-- The ranges hold right after reset; the registers' values there are log 7's choice and the configuration log 6's. -/
def Obligations.ResetRegistersInRange : Prop := RegistersInRange State.reset

/-- R175 event by event: while a DETECT is in progress between its `IeSet(false)` and its epilogue, interrupts stay
disabled. -/
def Obligations.StepKeepsInterruptBracket : Prop :=
  ∀ s t : State, BracketHolds s → step s = .next t → BracketHolds t

def Obligations.ResetInterruptBracket : Prop := BracketHolds State.reset

/-- R41 and R220: a step only appends to the event trace and to the deliveries. -/
def Obligations.StepOnlyAppendsToTrace : Prop :=
  ∀ s t : State, step s = .next t → s.trace <+: t.trace ∧ s.delivered <+: t.delivered

/-- R21: the configuration is a parameter that no step changes (that it stands in the state is log 6's). -/
def Obligations.StepKeepsConfiguration : Prop :=
  ∀ s t : State, step s = .next t → t.cfg = s.cfg

/-- The machine never stops from a state where Busy stands only with an accepted request in `REQ` (R22, R80), and every step
keeps that: a run has no fault and no refusal as an outcome of a step. -/
def Obligations.StepAlwaysGoesOn : Prop :=
  ∀ s : State, (s.seqState = .busy → s.req.instr.accepted = true) →
    ∃ t, step s = .next t ∧ (t.seqState = .busy → t.req.instr.accepted = true)

/-! ## Reset -/

/-- R44: right after reset the block is Idle, `FAULT` is clear and the trace is empty, whatever the configuration. -/
def Obligations.ResetLeavesIdleClearEmpty : Prop :=
  ∀ c : Config, (State.boot c).seqState = .idle ∧ (State.boot c).fault = none ∧ (State.boot c).trace = [] ∧
    State.reset = State.boot Config.atReset

/-- The configuration of `State.reset` is well formed in the sense of R9, whatever the OPEN values are (log 6). -/
def Obligations.ResetConfigurationWellFormed : Prop := Config.atReset.wf = true
end

