-- ==== Sys2Proof/Laws/Decode.lean ====
section
/-!
SUPPORT. The fields of a request word (R71) and of one built from them, and what a built word decodes to.
-/

namespace Sys2Proof.Laws

theorem requestWord_toNat (op : BitVec 4) (imm : Byte) :
    (requestWord op imm).toNat = 4096 * op.toNat + imm.toNat := by
  rw [requestWord, BitVec.toNat_append, BitVec.toNat_append, ← Nat.shiftLeft_add_eq_or_of_lt imm.isLt,
    ← Nat.shiftLeft_add_eq_or_of_lt (0 : BitVec 4).isLt]
  simp [Nat.shiftLeft_eq]
  omega

theorem opField_toNat (w : Word) : (opField w).toNat = w.toNat / 4096 := by
  have := w.isLt
  simp [opField, Nat.shiftRight_eq_div_pow]
  omega

theorem mbzField_toNat (w : Word) : (mbzField w).toNat = w.toNat / 256 % 16 := by
  simp [mbzField, Nat.shiftRight_eq_div_pow]

theorem immField_toNat (w : Word) : (immField w).toNat = w.toNat % 256 := by
  simp [immField]

theorem opField_requestWord (op : BitVec 4) (imm : Byte) : opField (requestWord op imm) = op := by
  apply BitVec.eq_of_toNat_eq
  have := imm.isLt
  rw [opField_toNat, requestWord_toNat]
  omega

theorem mbzField_requestWord (op : BitVec 4) (imm : Byte) : mbzField (requestWord op imm) = 0 := by
  apply BitVec.eq_of_toNat_eq
  have := imm.isLt
  rw [mbzField_toNat, requestWord_toNat]
  simp
  omega

theorem immField_requestWord (op : BitVec 4) (imm : Byte) : immField (requestWord op imm) = imm := by
  apply BitVec.eq_of_toNat_eq
  have := imm.isLt
  rw [immField_toNat, requestWord_toNat]
  omega

theorem requestWord_fields (w : Word) (h : mbzField w = 0) : requestWord (opField w) (immField w) = w := by
  apply BitVec.eq_of_toNat_eq
  have := congrArg BitVec.toNat h
  rw [mbzField_toNat] at this
  rw [requestWord_toNat, opField_toNat, immField_toNat]
  simp at this
  omega
/-- Decoding a word built from an operation code and an immediate (R71, R73). -/
theorem decode_requestWord (op : BitVec 4) (imm : Byte) (fs : List Byte) :
    decode (.hostWord (requestWord op imm) fs) = decodeOp (.hostWord (requestWord op imm) fs) imm fs op.toNat := by
  simp [decode, opField_requestWord, mbzField_requestWord, immField_requestWord]

theorem ofList_toList (f : DateTimeFields) : DateTimeFields.ofList f.toList = some f := rfl

theorem dateTimeImm_bits (a b : Bool) :
    (dateTimeImm a b).extractLsb' 2 6 = 0 ∧ (dateTimeImm a b).getLsbD 0 = a ∧ (dateTimeImm a b).getLsbD 1 = b := by
  cases a <;> cases b <;> decide

end Sys2Proof.Laws
end

