-- ==== Sys2Proof/Laws/Memory.lean ====
section
/-!
SUPPORT. The memory of paging-register bytes: every operation keeps its canonical form, a read after a write to the same
address gives the byte written, and a write leaves every other address alone.
-/

namespace Sys2Proof.Laws

open Sys2Proof.Machine

theorem memory_wf_cons (a : Nat) (b : Byte) (m : List Host.Cell) :
    Memory.wf ((a, b) :: m) = true ↔ b ≠ Memory.unlisted ∧ (∀ c ∈ m.head?, a < c.1) ∧ Memory.wf m = true := by
  cases m with
  | nil => simp [Memory.wf]
  | cons c m => simp [Memory.wf, and_assoc]

/-- A write's first listed address is the address written or the old first one. -/
theorem memory_write_head (m : List Host.Cell) (a : Nat) (b : Byte) (z : Nat) (hz : z < a)
    (h : ∀ c ∈ m.head?, z < c.1) (hm : Memory.wf m = true) : ∀ c ∈ (Memory.write m a b).head?, z < c.1 := by
  cases m with
  | nil =>
    by_cases hb : b = Memory.unlisted <;> simp [Memory.write, hb, hz]
  | cons c m =>
    obtain ⟨x, y⟩ := c
    simp only [List.head?_cons, Option.mem_some_iff, forall_eq'] at h
    rw [memory_wf_cons] at hm
    unfold Memory.write
    split
    · simpa using h
    · split
      · split
        · intro c hc
          have := hm.2.1 c hc
          omega
        · simpa using hz
      · split
        · simpa using h
        · simpa using hz

theorem memory_wf_write (m : List Host.Cell) (a : Nat) (b : Byte) (h : Memory.wf m = true) :
    Memory.wf (Memory.write m a b) = true := by
  induction m with
  | nil => by_cases hb : b = Memory.unlisted <;> simp [Memory.write, Memory.wf, hb]
  | cons c m ih =>
    obtain ⟨x, y⟩ := c
    rw [memory_wf_cons] at h
    obtain ⟨hy, hx, hm⟩ := h
    unfold Memory.write
    split
    · rw [memory_wf_cons]
      exact ⟨hy, memory_write_head m a b x ‹_› hx hm, ih hm⟩
    · split
      · subst x
        split
        · exact hm
        · exact (memory_wf_cons _ _ _).2 ⟨‹_›, hx, hm⟩
      · split
        · exact (memory_wf_cons _ _ _).2 ⟨hy, hx, hm⟩
        · refine (memory_wf_cons _ _ _).2 ⟨‹_›, ?_, (memory_wf_cons _ _ _).2 ⟨hy, hx, hm⟩⟩
          simp
          omega

/-- An address below every listed one reads as unlisted. -/
theorem memory_read_below (m : List Host.Cell) (a : Nat) (h : ∀ c ∈ m.head?, a < c.1) (hm : Memory.wf m = true) :
    Memory.read m a = Memory.unlisted := by
  induction m with
  | nil => rfl
  | cons c m ih =>
    obtain ⟨x, y⟩ := c
    rw [memory_wf_cons] at hm
    simp only [List.head?_cons, Option.mem_some_iff, forall_eq'] at h
    rw [Memory.read, if_neg (by omega)]
    exact ih (fun c hc => lt_trans h (hm.2.1 c hc)) hm.2.2

theorem memory_read_write_same (m : List Host.Cell) (a : Nat) (b : Byte) (h : Memory.wf m = true) :
    Memory.read (Memory.write m a b) a = b := by
  induction m with
  | nil => by_cases hb : b = Memory.unlisted <;> simp [Memory.write, Memory.read, hb]
  | cons c m ih =>
    obtain ⟨x, y⟩ := c
    rw [memory_wf_cons] at h
    unfold Memory.write
    split
    · rw [Memory.read, if_neg (by omega)]
      exact ih h.2.2
    · split
      · subst x
        split
        · rw [memory_read_below m a h.2.1 h.2.2]
          exact Eq.symm ‹_›
        · simp [Memory.read]
      · split
        · rw [memory_read_below _ a (by simp; omega) ((memory_wf_cons _ _ _).2 h)]
          exact Eq.symm ‹_›
        · simp [Memory.read]

theorem memory_read_write_other (m : List Host.Cell) (a c : Nat) (b : Byte) (h : c ≠ a) :
    Memory.read (Memory.write m a b) c = Memory.read m c := by
  induction m with
  | nil =>
    by_cases hb : b = Memory.unlisted
    · simp [Memory.write, hb]
    · simp [Memory.write, Memory.read, hb, h.symm]
  | cons d m ih =>
    obtain ⟨x, y⟩ := d
    unfold Memory.write
    split
    · simp [Memory.read, ih]
    · split
      · subst x
        split <;> simp [Memory.read, h.symm]
      · split
        · rfl
        · simp [Memory.read, h.symm]

theorem memory_wf_writeBytes (n : Nat) (m : List Host.Cell) (a v : Nat) (h : Memory.wf m = true) :
    Memory.wf (Memory.writeBytes m a n v) = true := by
  induction n generalizing m a v with
  | zero => exact h
  | succ n ih => exact ih _ _ _ (memory_wf_write m a _ h)

theorem memory_read_writeBytes_other (n : Nat) (m : List Host.Cell) (a v c : Nat) (h : c < a ∨ a + n ≤ c) :
    Memory.read (Memory.writeBytes m a n v) c = Memory.read m c := by
  induction n generalizing m a v with
  | zero => rfl
  | succ n ih =>
    rw [Memory.writeBytes, ih _ _ _ (by omega), memory_read_write_other _ _ _ _ (by omega)]

end Sys2Proof.Laws
end

