-- ==== Sys2Proof/Laws/Operands.lean ====
section
/-!
SUPPORT. The values computed from operands, as the numbers the rules give (R101, R110, R133, R150 to R152).
-/

namespace Sys2Proof.Laws

open Sys2Proof.Machine

theorem knockValue_toNat (b : Bool) : (knockValue b).toNat = if b then 6 else 4 := by cases b <;> rfl

theorem commitValue_toNat (b : Bool) : (commitValue b).toNat = if b then 7 else 5 := by cases b <;> rfl

theorem commitValue_eq (b : Bool) : commitValue b = if b then 7 else 5 := by cases b <;> rfl

theorem rxShift_eq (acc : BitVec 9) (r : Word) :
    rxShift acc r = (acc <<< 1) ||| (if r.getLsbD 1 then 2 else 0) := by
  ext i hi
  interval_cases i <;> cases h : r.getLsbD 1 <;> simp_all [rxShift, ← BitVec.getLsbD_eq_getElem]

/-- The byte in an accumulator of twice its value (R110). -/
theorem rxByte_twice (v : Nat) : rxByte (BitVec.ofNat 9 (2 * v)) = BitVec.ofNat 8 v := by
  apply BitVec.eq_of_toNat_eq
  simp [rxByte, Nat.shiftRight_eq_div_pow]
  omega

theorem bcdByte_eq (n : Byte) : bcdByte n = BitVec.ofNat 8 (16 * (n.toNat / 10) + n.toNat % 10) := by
  revert n
  decide

theorem highNibble_eq (b : Byte) : (b.extractLsb' 4 4).toNat = b.toNat / 16 := by
  have := b.isLt
  simp [Nat.shiftRight_eq_div_pow]
  omega

theorem lowNibble_eq (b : Byte) : (b.extractLsb' 0 4).toNat = b.toNat % 16 := by simp

theorem dateTimeImm_eq (mode12 pm : Bool) :
    dateTimeImm mode12 pm = (if pm then 2 else 0) + (if mode12 then 1 else 0) := by
  cases mode12 <;> cases pm <;> rfl

/-- No value above 99, no offending index (R133). -/
theorem firstOutOfRange_none (vs : List Byte) (j : Nat) (h : ∀ v ∈ vs, v.toNat ≤ 99) : firstOutOfRange vs j = none := by
  induction vs generalizing j with
  | nil => rfl
  | cons v vs ih =>
    rw [firstOutOfRange, if_neg (Nat.not_lt.2 (h v List.mem_cons_self))]
    exact ih _ fun u hu => h u (List.mem_cons_of_mem v hu)

/-- The first value above 99 is the offending one (R205). -/
theorem firstOutOfRange_some (vs : List Byte) (i j : Nat) (v : Byte) (h : vs[j]? = some v) (hv : 99 < v.toNat)
    (hk : ∀ k < j, ∀ u, vs[k]? = some u → u.toNat ≤ 99) : firstOutOfRange vs i = some (i + j, v) := by
  induction vs generalizing i j with
  | nil => simp at h
  | cons u us ih =>
    cases j with
    | zero =>
      obtain rfl : u = v := by simpa using h
      simp [firstOutOfRange, hv]
    | succ j =>
      rw [firstOutOfRange, if_neg (Nat.not_lt.2 (hk 0 (by omega) u (by simp))),
        ih (i + 1) j (by simpa using h) fun k hkj w hw => hk (k + 1) (by omega) w (by simpa using hw)]
      simp
      omega

end Sys2Proof.Laws
end

