-- ==== Sys2Proof/Laws/PerInstr.lean ====
section
/-!
SUPPORT. The family Latch, one lemma per constructor: the request that an accepted instruction's encoding latches (R23, R80)
names the operation the instruction is, so the sequencer runs what the host asked for.
-/

namespace Sys2Proof.Laws

/-- What `REQ` names after the acceptance of the instruction's encoding. -/
def Latch.Statement (i : Instr) : Prop :=
  i.accepted = true → (encode i).request.instr = i.operation ∧ i.operation.accepted = true

/-- The request of a built word names what the word decodes to. -/
theorem request_instr (op : BitVec 4) (imm : Byte) (fs : List Byte) :
    (Presented.hostWord (requestWord op imm) fs).request.instr =
      decodeOp (.hostWord (requestWord op imm) fs) imm fs op.toNat := by
  rw [Presented.request, Req.instr, opField_requestWord, immField_requestWord, decode_requestWord]

theorem Latch.sendCmd (c : Byte) : Latch.Statement (.sendCmd c) := by
  refine fun _ => ⟨?_, rfl⟩
  rw [encode, request_instr]
  simp [decodeOp, decodeBare, Instr.operation]

theorem Latch.readByte : Latch.Statement (.readByte) := by
  refine fun _ => ⟨?_, rfl⟩
  rw [encode, request_instr]
  simp [decodeOp, decodeNullary, decodeBare, Instr.operation]

theorem Latch.writeByte (v : Byte) : Latch.Statement (.writeByte v) := by
  refine fun _ => ⟨?_, rfl⟩
  rw [encode, request_instr]
  simp [decodeOp, decodeBare, Instr.operation]

theorem Latch.readStatus : Latch.Statement (.readStatus) := by
  refine fun _ => ⟨?_, rfl⟩
  rw [encode, request_instr]
  simp [decodeOp, decodeNullary, decodeBare, Instr.operation]

theorem Latch.writeStatus (v : Byte) : Latch.Statement (.writeStatus v) := by
  refine fun _ => ⟨?_, rfl⟩
  rw [encode, request_instr]
  simp [decodeOp, decodeBare, Instr.operation]

theorem Latch.writeDatetime (mode12 pm : Bool) (f : DateTimeFields) : Latch.Statement (.writeDatetime mode12 pm f) := by
  refine fun _ => ⟨?_, rfl⟩
  rw [encode, request_instr]
  cases mode12 <;> cases pm <;> rfl

theorem Latch.resetChip : Latch.Statement (.resetChip) := by
  refine fun _ => ⟨?_, rfl⟩
  rw [encode, request_instr]
  simp [decodeOp, decodeNullary, decodeBare, Instr.operation]

theorem Latch.toBcd (n : Byte) : Latch.Statement (.toBcd n) := by
  refine fun _ => ⟨?_, rfl⟩
  rw [encode, request_instr]
  simp [decodeOp, decodeBare, Instr.operation]

theorem Latch.fromBcd (b : Byte) : Latch.Statement (.fromBcd b) := by
  refine fun _ => ⟨?_, rfl⟩
  rw [encode, request_instr]
  simp [decodeOp, decodeBare, Instr.operation]

theorem Latch.detect : Latch.Statement (.detect) := by
  refine fun _ => ⟨?_, rfl⟩
  rw [encode, request_instr]
  simp [decodeOp, decodeNullary, decodeBare, Instr.operation]

theorem Latch.enableAlt : Latch.Statement (.enableAlt) := by
  refine fun _ => ⟨?_, rfl⟩
  rw [encode, request_instr]
  simp [decodeOp, decodeNullary, decodeBare, Instr.operation]

theorem Latch.cmdMaskWrite0 : Latch.Statement (.cmdMaskWrite0) := fun _ => ⟨rfl, rfl⟩

theorem Latch.cmdMaskRead0 : Latch.Statement (.cmdMaskRead0) := fun _ => ⟨rfl, rfl⟩

theorem Latch.cmdMaskWrite1 : Latch.Statement (.cmdMaskWrite1) := fun _ => ⟨rfl, rfl⟩

theorem Latch.cmdMaskRead1 : Latch.Statement (.cmdMaskRead1) := fun _ => ⟨rfl, rfl⟩

theorem Latch.cmdMaskWrite2 : Latch.Statement (.cmdMaskWrite2) := fun _ => ⟨rfl, rfl⟩

theorem Latch.cmdMaskRead2 : Latch.Statement (.cmdMaskRead2) := fun _ => ⟨rfl, rfl⟩

theorem Latch.cmdMaskWrite3 : Latch.Statement (.cmdMaskWrite3) := fun _ => ⟨rfl, rfl⟩

theorem Latch.cmdMaskRead3 : Latch.Statement (.cmdMaskRead3) := fun _ => ⟨rfl, rfl⟩

theorem Latch.cmdMaskWrite4 : Latch.Statement (.cmdMaskWrite4) := fun _ => ⟨rfl, rfl⟩

theorem Latch.cmdMaskRead4 : Latch.Statement (.cmdMaskRead4) := fun _ => ⟨rfl, rfl⟩

theorem Latch.cmdMaskWrite5 : Latch.Statement (.cmdMaskWrite5) := fun _ => ⟨rfl, rfl⟩

theorem Latch.cmdMaskRead5 : Latch.Statement (.cmdMaskRead5) := fun _ => ⟨rfl, rfl⟩

theorem Latch.cmdMaskWrite6 : Latch.Statement (.cmdMaskWrite6) := fun _ => ⟨rfl, rfl⟩

theorem Latch.cmdMaskRead6 : Latch.Statement (.cmdMaskRead6) := fun _ => ⟨rfl, rfl⟩

theorem Latch.cmdMaskWrite7 : Latch.Statement (.cmdMaskWrite7) := fun _ => ⟨rfl, rfl⟩

theorem Latch.cmdMaskRead7 : Latch.Statement (.cmdMaskRead7) := fun _ => ⟨rfl, rfl⟩

theorem Latch.refused (why : Reject) (p : Presented) : Latch.Statement (.refused why p) := fun h => nomatch h

end Sys2Proof.Laws
end

