-- ==== Sys2Proof/Laws/State.lean ====
section
/-!
SUPPORT. The fields of the shared state operations, one lemma per field per operation.
-/

namespace Sys2Proof.Machine

/-! `State.emit` -/

@[simp] theorem State.emit_seqState (e : Event) (s : State) : (s.emit e).seqState = s.seqState := rfl
@[simp] theorem State.emit_req (e : Event) (s : State) : (s.emit e).req = s.req := rfl
@[simp] theorem State.emit_seqPc (e : Event) (s : State) : (s.emit e).seqPc = s.seqPc + 1 := rfl
@[simp] theorem State.emit_txsr (e : Event) (s : State) : (s.emit e).txsr = s.txsr := rfl
@[simp] theorem State.emit_rxacc (e : Event) (s : State) : (s.emit e).rxacc = s.rxacc := rfl
@[simp] theorem State.emit_bitcnt (e : Event) (s : State) : (s.emit e).bitcnt = s.bitcnt := rfl
@[simp] theorem State.emit_kcnt (e : Event) (s : State) : (s.emit e).kcnt = s.kcnt := rfl
@[simp] theorem State.emit_result (e : Event) (s : State) : (s.emit e).result = s.result := rfl
@[simp] theorem State.emit_refSum (e : Event) (s : State) : (s.emit e).refSum = s.refSum := rfl
@[simp] theorem State.emit_matched (e : Event) (s : State) : (s.emit e).matched = s.matched := rfl
@[simp] theorem State.emit_pageIdx (e : Event) (s : State) : (s.emit e).pageIdx = s.pageIdx := rfl
@[simp] theorem State.emit_ieSaved (e : Event) (s : State) : (s.emit e).ieSaved = s.ieSaved := rfl
@[simp] theorem State.emit_fault (e : Event) (s : State) : (s.emit e).fault = s.fault := rfl
@[simp] theorem State.emit_refusal (e : Event) (s : State) : (s.emit e).refusal = s.refusal := rfl
@[simp] theorem State.emit_data (e : Event) (s : State) : (s.emit e).data = s.data := rfl
@[simp] theorem State.emit_direction (e : Event) (s : State) : (s.emit e).direction = s.direction := rfl
@[simp] theorem State.emit_control (e : Event) (s : State) : (s.emit e).control = s.control := rfl
@[simp] theorem State.emit_ie (e : Event) (s : State) : (s.emit e).ie = s.ie := rfl
@[simp] theorem State.emit_page (e : Event) (s : State) : (s.emit e).page = s.page := rfl
@[simp] theorem State.emit_pagingMode (e : Event) (s : State) : (s.emit e).pagingMode = s.pagingMode := rfl
@[simp] theorem State.emit_passthrough (e : Event) (s : State) : (s.emit e).passthrough = s.passthrough := rfl
@[simp] theorem State.emit_mem (e : Event) (s : State) : (s.emit e).mem = s.mem := rfl
@[simp] theorem State.emit_trace (e : Event) (s : State) : (s.emit e).trace = s.trace ++ [e] := rfl
@[simp] theorem State.emit_delivered (e : Event) (s : State) : (s.emit e).delivered = s.delivered := rfl
@[simp] theorem State.emit_inbox (e : Event) (s : State) : (s.emit e).inbox = s.inbox := rfl
@[simp] theorem State.emit_answers (e : Event) (s : State) : (s.emit e).answers = s.answers := rfl
@[simp] theorem State.emit_draws (e : Event) (s : State) : (s.emit e).draws = s.draws := rfl
@[simp] theorem State.emit_cfg (e : Event) (s : State) : (s.emit e).cfg = s.cfg := rfl

/-! `State.accept` -/

@[simp] theorem State.accept_seqState (r : Req) (s : State) : (s.accept r).seqState = .busy := rfl
@[simp] theorem State.accept_req (r : Req) (s : State) : (s.accept r).req = r := rfl
@[simp] theorem State.accept_seqPc (r : Req) (s : State) : (s.accept r).seqPc = 0 := rfl
@[simp] theorem State.accept_txsr (r : Req) (s : State) : (s.accept r).txsr = s.txsr := rfl
@[simp] theorem State.accept_rxacc (r : Req) (s : State) : (s.accept r).rxacc = s.rxacc := rfl
@[simp] theorem State.accept_bitcnt (r : Req) (s : State) : (s.accept r).bitcnt = s.bitcnt := rfl
@[simp] theorem State.accept_kcnt (r : Req) (s : State) : (s.accept r).kcnt = s.kcnt := rfl
@[simp] theorem State.accept_result (r : Req) (s : State) : (s.accept r).result = s.result := rfl
@[simp] theorem State.accept_refSum (r : Req) (s : State) : (s.accept r).refSum = s.refSum := rfl
@[simp] theorem State.accept_matched (r : Req) (s : State) : (s.accept r).matched = s.matched := rfl
@[simp] theorem State.accept_pageIdx (r : Req) (s : State) : (s.accept r).pageIdx = s.pageIdx := rfl
@[simp] theorem State.accept_ieSaved (r : Req) (s : State) : (s.accept r).ieSaved = s.ieSaved := rfl
@[simp] theorem State.accept_fault (r : Req) (s : State) : (s.accept r).fault = s.fault := rfl
@[simp] theorem State.accept_refusal (r : Req) (s : State) : (s.accept r).refusal = s.refusal := rfl
@[simp] theorem State.accept_data (r : Req) (s : State) : (s.accept r).data = s.data := rfl
@[simp] theorem State.accept_direction (r : Req) (s : State) : (s.accept r).direction = s.direction := rfl
@[simp] theorem State.accept_control (r : Req) (s : State) : (s.accept r).control = s.control := rfl
@[simp] theorem State.accept_ie (r : Req) (s : State) : (s.accept r).ie = s.ie := rfl
@[simp] theorem State.accept_page (r : Req) (s : State) : (s.accept r).page = s.page := rfl
@[simp] theorem State.accept_pagingMode (r : Req) (s : State) : (s.accept r).pagingMode = s.pagingMode := rfl
@[simp] theorem State.accept_passthrough (r : Req) (s : State) : (s.accept r).passthrough = s.passthrough := rfl
@[simp] theorem State.accept_mem (r : Req) (s : State) : (s.accept r).mem = s.mem := rfl
@[simp] theorem State.accept_trace (r : Req) (s : State) : (s.accept r).trace = s.trace := rfl
@[simp] theorem State.accept_delivered (r : Req) (s : State) : (s.accept r).delivered = s.delivered := rfl
@[simp] theorem State.accept_inbox (r : Req) (s : State) : (s.accept r).inbox = s.inbox := rfl
@[simp] theorem State.accept_answers (r : Req) (s : State) : (s.accept r).answers = s.answers := rfl
@[simp] theorem State.accept_draws (r : Req) (s : State) : (s.accept r).draws = s.draws := rfl
@[simp] theorem State.accept_cfg (r : Req) (s : State) : (s.accept r).cfg = s.cfg := rfl

/-! `State.complete` -/

@[simp] theorem State.complete_seqState (r : Option Result) (s : State) : (s.complete r).seqState = .idle := rfl
@[simp] theorem State.complete_req (r : Option Result) (s : State) : (s.complete r).req = s.req := rfl
@[simp] theorem State.complete_seqPc (r : Option Result) (s : State) : (s.complete r).seqPc = s.seqPc := rfl
@[simp] theorem State.complete_txsr (r : Option Result) (s : State) : (s.complete r).txsr = s.txsr := rfl
@[simp] theorem State.complete_rxacc (r : Option Result) (s : State) : (s.complete r).rxacc = s.rxacc := rfl
@[simp] theorem State.complete_bitcnt (r : Option Result) (s : State) : (s.complete r).bitcnt = s.bitcnt := rfl
@[simp] theorem State.complete_kcnt (r : Option Result) (s : State) : (s.complete r).kcnt = s.kcnt := rfl
@[simp] theorem State.complete_result (r : Option Result) (s : State) : (s.complete r).result = r.getD s.result := rfl
@[simp] theorem State.complete_refSum (r : Option Result) (s : State) : (s.complete r).refSum = s.refSum := rfl
@[simp] theorem State.complete_matched (r : Option Result) (s : State) : (s.complete r).matched = s.matched := rfl
@[simp] theorem State.complete_pageIdx (r : Option Result) (s : State) : (s.complete r).pageIdx = s.pageIdx := rfl
@[simp] theorem State.complete_ieSaved (r : Option Result) (s : State) : (s.complete r).ieSaved = s.ieSaved := rfl
@[simp] theorem State.complete_fault (r : Option Result) (s : State) : (s.complete r).fault = s.fault := rfl
@[simp] theorem State.complete_refusal (r : Option Result) (s : State) : (s.complete r).refusal = s.refusal := rfl
@[simp] theorem State.complete_data (r : Option Result) (s : State) : (s.complete r).data = s.data := rfl
@[simp] theorem State.complete_direction (r : Option Result) (s : State) : (s.complete r).direction = s.direction := rfl
@[simp] theorem State.complete_control (r : Option Result) (s : State) : (s.complete r).control = s.control := rfl
@[simp] theorem State.complete_ie (r : Option Result) (s : State) : (s.complete r).ie = s.ie := rfl
@[simp] theorem State.complete_page (r : Option Result) (s : State) : (s.complete r).page = s.page := rfl
@[simp] theorem State.complete_pagingMode (r : Option Result) (s : State) : (s.complete r).pagingMode = s.pagingMode := rfl
@[simp] theorem State.complete_passthrough (r : Option Result) (s : State) : (s.complete r).passthrough = s.passthrough := rfl
@[simp] theorem State.complete_mem (r : Option Result) (s : State) : (s.complete r).mem = s.mem := rfl
@[simp] theorem State.complete_trace (r : Option Result) (s : State) : (s.complete r).trace = s.trace := rfl
@[simp] theorem State.complete_delivered (r : Option Result) (s : State) : (s.complete r).delivered = s.delivered ++ [⟨s.req, match r with | some v => .result v | none => .done⟩] := rfl
@[simp] theorem State.complete_inbox (r : Option Result) (s : State) : (s.complete r).inbox = s.inbox := rfl
@[simp] theorem State.complete_answers (r : Option Result) (s : State) : (s.complete r).answers = s.answers := rfl
@[simp] theorem State.complete_draws (r : Option Result) (s : State) : (s.complete r).draws = s.draws := rfl
@[simp] theorem State.complete_cfg (r : Option Result) (s : State) : (s.complete r).cfg = s.cfg := rfl

/-! `State.raiseFault` -/

@[simp] theorem State.raiseFault_seqState (m : FaultMark) (s : State) : (s.raiseFault m).seqState = .idle := rfl
@[simp] theorem State.raiseFault_req (m : FaultMark) (s : State) : (s.raiseFault m).req = s.req := rfl
@[simp] theorem State.raiseFault_seqPc (m : FaultMark) (s : State) : (s.raiseFault m).seqPc = s.seqPc := rfl
@[simp] theorem State.raiseFault_txsr (m : FaultMark) (s : State) : (s.raiseFault m).txsr = s.txsr := rfl
@[simp] theorem State.raiseFault_rxacc (m : FaultMark) (s : State) : (s.raiseFault m).rxacc = s.rxacc := rfl
@[simp] theorem State.raiseFault_bitcnt (m : FaultMark) (s : State) : (s.raiseFault m).bitcnt = s.bitcnt := rfl
@[simp] theorem State.raiseFault_kcnt (m : FaultMark) (s : State) : (s.raiseFault m).kcnt = s.kcnt := rfl
@[simp] theorem State.raiseFault_result (m : FaultMark) (s : State) : (s.raiseFault m).result = s.result := rfl
@[simp] theorem State.raiseFault_refSum (m : FaultMark) (s : State) : (s.raiseFault m).refSum = s.refSum := rfl
@[simp] theorem State.raiseFault_matched (m : FaultMark) (s : State) : (s.raiseFault m).matched = s.matched := rfl
@[simp] theorem State.raiseFault_pageIdx (m : FaultMark) (s : State) : (s.raiseFault m).pageIdx = s.pageIdx := rfl
@[simp] theorem State.raiseFault_ieSaved (m : FaultMark) (s : State) : (s.raiseFault m).ieSaved = s.ieSaved := rfl
@[simp] theorem State.raiseFault_fault (m : FaultMark) (s : State) : (s.raiseFault m).fault = stickyFault s.fault m := rfl
@[simp] theorem State.raiseFault_refusal (m : FaultMark) (s : State) : (s.raiseFault m).refusal = s.refusal := rfl
@[simp] theorem State.raiseFault_data (m : FaultMark) (s : State) : (s.raiseFault m).data = s.data := rfl
@[simp] theorem State.raiseFault_direction (m : FaultMark) (s : State) : (s.raiseFault m).direction = s.direction := rfl
@[simp] theorem State.raiseFault_control (m : FaultMark) (s : State) : (s.raiseFault m).control = s.control := rfl
@[simp] theorem State.raiseFault_ie (m : FaultMark) (s : State) : (s.raiseFault m).ie = s.ie := rfl
@[simp] theorem State.raiseFault_page (m : FaultMark) (s : State) : (s.raiseFault m).page = s.page := rfl
@[simp] theorem State.raiseFault_pagingMode (m : FaultMark) (s : State) : (s.raiseFault m).pagingMode = s.pagingMode := rfl
@[simp] theorem State.raiseFault_passthrough (m : FaultMark) (s : State) : (s.raiseFault m).passthrough = s.passthrough := rfl
@[simp] theorem State.raiseFault_mem (m : FaultMark) (s : State) : (s.raiseFault m).mem = s.mem := rfl
@[simp] theorem State.raiseFault_trace (m : FaultMark) (s : State) : (s.raiseFault m).trace = s.trace := rfl
@[simp] theorem State.raiseFault_delivered (m : FaultMark) (s : State) : (s.raiseFault m).delivered = s.delivered ++ [⟨s.req, .fault m⟩] := rfl
@[simp] theorem State.raiseFault_inbox (m : FaultMark) (s : State) : (s.raiseFault m).inbox = s.inbox := rfl
@[simp] theorem State.raiseFault_answers (m : FaultMark) (s : State) : (s.raiseFault m).answers = s.answers := rfl
@[simp] theorem State.raiseFault_draws (m : FaultMark) (s : State) : (s.raiseFault m).draws = s.draws := rfl
@[simp] theorem State.raiseFault_cfg (m : FaultMark) (s : State) : (s.raiseFault m).cfg = s.cfg := rfl

/-! `State.refuse` -/

@[simp] theorem State.refuse_seqState (s : State) : (s.refuse).seqState = s.seqState := rfl
@[simp] theorem State.refuse_req (s : State) : (s.refuse).req = s.req := rfl
@[simp] theorem State.refuse_seqPc (s : State) : (s.refuse).seqPc = s.seqPc := rfl
@[simp] theorem State.refuse_txsr (s : State) : (s.refuse).txsr = s.txsr := rfl
@[simp] theorem State.refuse_rxacc (s : State) : (s.refuse).rxacc = s.rxacc := rfl
@[simp] theorem State.refuse_bitcnt (s : State) : (s.refuse).bitcnt = s.bitcnt := rfl
@[simp] theorem State.refuse_kcnt (s : State) : (s.refuse).kcnt = s.kcnt := rfl
@[simp] theorem State.refuse_result (s : State) : (s.refuse).result = s.result := rfl
@[simp] theorem State.refuse_refSum (s : State) : (s.refuse).refSum = s.refSum := rfl
@[simp] theorem State.refuse_matched (s : State) : (s.refuse).matched = s.matched := rfl
@[simp] theorem State.refuse_pageIdx (s : State) : (s.refuse).pageIdx = s.pageIdx := rfl
@[simp] theorem State.refuse_ieSaved (s : State) : (s.refuse).ieSaved = s.ieSaved := rfl
@[simp] theorem State.refuse_fault (s : State) : (s.refuse).fault = s.fault := rfl
@[simp] theorem State.refuse_refusal (s : State) : (s.refuse).refusal = stickyRefusal s.refusal := rfl
@[simp] theorem State.refuse_data (s : State) : (s.refuse).data = s.data := rfl
@[simp] theorem State.refuse_direction (s : State) : (s.refuse).direction = s.direction := rfl
@[simp] theorem State.refuse_control (s : State) : (s.refuse).control = s.control := rfl
@[simp] theorem State.refuse_ie (s : State) : (s.refuse).ie = s.ie := rfl
@[simp] theorem State.refuse_page (s : State) : (s.refuse).page = s.page := rfl
@[simp] theorem State.refuse_pagingMode (s : State) : (s.refuse).pagingMode = s.pagingMode := rfl
@[simp] theorem State.refuse_passthrough (s : State) : (s.refuse).passthrough = s.passthrough := rfl
@[simp] theorem State.refuse_mem (s : State) : (s.refuse).mem = s.mem := rfl
@[simp] theorem State.refuse_trace (s : State) : (s.refuse).trace = s.trace := rfl
@[simp] theorem State.refuse_delivered (s : State) : (s.refuse).delivered = s.delivered := rfl
@[simp] theorem State.refuse_inbox (s : State) : (s.refuse).inbox = s.inbox := rfl
@[simp] theorem State.refuse_answers (s : State) : (s.refuse).answers = s.answers := rfl
@[simp] theorem State.refuse_draws (s : State) : (s.refuse).draws = s.draws := rfl
@[simp] theorem State.refuse_cfg (s : State) : (s.refuse).cfg = s.cfg := rfl

/-! `State.readDone` -/

@[simp] theorem State.readDone_seqState (addr : Nat) (n v : Nat) (s : State) : (s.readDone addr n v).seqState = s.seqState := rfl
@[simp] theorem State.readDone_req (addr : Nat) (n v : Nat) (s : State) : (s.readDone addr n v).req = s.req := rfl
@[simp] theorem State.readDone_seqPc (addr : Nat) (n v : Nat) (s : State) : (s.readDone addr n v).seqPc = s.seqPc + 1 := rfl
@[simp] theorem State.readDone_txsr (addr : Nat) (n v : Nat) (s : State) : (s.readDone addr n v).txsr = s.txsr := rfl
@[simp] theorem State.readDone_rxacc (addr : Nat) (n v : Nat) (s : State) : (s.readDone addr n v).rxacc = s.rxacc := rfl
@[simp] theorem State.readDone_bitcnt (addr : Nat) (n v : Nat) (s : State) : (s.readDone addr n v).bitcnt = s.bitcnt := rfl
@[simp] theorem State.readDone_kcnt (addr : Nat) (n v : Nat) (s : State) : (s.readDone addr n v).kcnt = s.kcnt := rfl
@[simp] theorem State.readDone_result (addr : Nat) (n v : Nat) (s : State) : (s.readDone addr n v).result = s.result := rfl
@[simp] theorem State.readDone_refSum (addr : Nat) (n v : Nat) (s : State) : (s.readDone addr n v).refSum = s.refSum := rfl
@[simp] theorem State.readDone_matched (addr : Nat) (n v : Nat) (s : State) : (s.readDone addr n v).matched = s.matched := rfl
@[simp] theorem State.readDone_pageIdx (addr : Nat) (n v : Nat) (s : State) : (s.readDone addr n v).pageIdx = s.pageIdx := rfl
@[simp] theorem State.readDone_ieSaved (addr : Nat) (n v : Nat) (s : State) : (s.readDone addr n v).ieSaved = s.ieSaved := rfl
@[simp] theorem State.readDone_fault (addr : Nat) (n v : Nat) (s : State) : (s.readDone addr n v).fault = s.fault := rfl
@[simp] theorem State.readDone_refusal (addr : Nat) (n v : Nat) (s : State) : (s.readDone addr n v).refusal = s.refusal := rfl
@[simp] theorem State.readDone_data (addr : Nat) (n v : Nat) (s : State) : (s.readDone addr n v).data = s.data := rfl
@[simp] theorem State.readDone_direction (addr : Nat) (n v : Nat) (s : State) : (s.readDone addr n v).direction = s.direction := rfl
@[simp] theorem State.readDone_control (addr : Nat) (n v : Nat) (s : State) : (s.readDone addr n v).control = s.control := rfl
@[simp] theorem State.readDone_ie (addr : Nat) (n v : Nat) (s : State) : (s.readDone addr n v).ie = s.ie := rfl
@[simp] theorem State.readDone_page (addr : Nat) (n v : Nat) (s : State) : (s.readDone addr n v).page = s.page := rfl
@[simp] theorem State.readDone_pagingMode (addr : Nat) (n v : Nat) (s : State) : (s.readDone addr n v).pagingMode = s.pagingMode := rfl
@[simp] theorem State.readDone_passthrough (addr : Nat) (n v : Nat) (s : State) : (s.readDone addr n v).passthrough = s.passthrough := rfl
@[simp] theorem State.readDone_mem (addr : Nat) (n v : Nat) (s : State) : (s.readDone addr n v).mem = s.mem := rfl
@[simp] theorem State.readDone_trace (addr : Nat) (n v : Nat) (s : State) : (s.readDone addr n v).trace = s.trace ++ [.rd addr n v] := rfl
@[simp] theorem State.readDone_delivered (addr : Nat) (n v : Nat) (s : State) : (s.readDone addr n v).delivered = s.delivered := rfl
@[simp] theorem State.readDone_inbox (addr : Nat) (n v : Nat) (s : State) : (s.readDone addr n v).inbox = s.inbox := rfl
@[simp] theorem State.readDone_answers (addr : Nat) (n v : Nat) (s : State) : (s.readDone addr n v).answers = s.answers.tail := rfl
@[simp] theorem State.readDone_draws (addr : Nat) (n v : Nat) (s : State) : (s.readDone addr n v).draws = s.draws + 1 := rfl
@[simp] theorem State.readDone_cfg (addr : Nat) (n v : Nat) (s : State) : (s.readDone addr n v).cfg = s.cfg := rfl

/-! `State.memWrite` -/

@[simp] theorem State.memWrite_seqState (w : BusWrite) (s : State) : (s.memWrite w).seqState = s.seqState := rfl
@[simp] theorem State.memWrite_req (w : BusWrite) (s : State) : (s.memWrite w).req = s.req := rfl
@[simp] theorem State.memWrite_seqPc (w : BusWrite) (s : State) : (s.memWrite w).seqPc = s.seqPc + 1 := rfl
@[simp] theorem State.memWrite_txsr (w : BusWrite) (s : State) : (s.memWrite w).txsr = s.txsr := rfl
@[simp] theorem State.memWrite_rxacc (w : BusWrite) (s : State) : (s.memWrite w).rxacc = s.rxacc := rfl
@[simp] theorem State.memWrite_bitcnt (w : BusWrite) (s : State) : (s.memWrite w).bitcnt = s.bitcnt := rfl
@[simp] theorem State.memWrite_kcnt (w : BusWrite) (s : State) : (s.memWrite w).kcnt = s.kcnt := rfl
@[simp] theorem State.memWrite_result (w : BusWrite) (s : State) : (s.memWrite w).result = s.result := rfl
@[simp] theorem State.memWrite_refSum (w : BusWrite) (s : State) : (s.memWrite w).refSum = s.refSum := rfl
@[simp] theorem State.memWrite_matched (w : BusWrite) (s : State) : (s.memWrite w).matched = s.matched := rfl
@[simp] theorem State.memWrite_pageIdx (w : BusWrite) (s : State) : (s.memWrite w).pageIdx = s.pageIdx := rfl
@[simp] theorem State.memWrite_ieSaved (w : BusWrite) (s : State) : (s.memWrite w).ieSaved = s.ieSaved := rfl
@[simp] theorem State.memWrite_fault (w : BusWrite) (s : State) : (s.memWrite w).fault = s.fault := rfl
@[simp] theorem State.memWrite_refusal (w : BusWrite) (s : State) : (s.memWrite w).refusal = s.refusal := rfl
@[simp] theorem State.memWrite_data (w : BusWrite) (s : State) : (s.memWrite w).data = s.data := rfl
@[simp] theorem State.memWrite_direction (w : BusWrite) (s : State) : (s.memWrite w).direction = s.direction := rfl
@[simp] theorem State.memWrite_control (w : BusWrite) (s : State) : (s.memWrite w).control = s.control := rfl
@[simp] theorem State.memWrite_ie (w : BusWrite) (s : State) : (s.memWrite w).ie = s.ie := rfl
@[simp] theorem State.memWrite_page (w : BusWrite) (s : State) : (s.memWrite w).page = s.page := rfl
@[simp] theorem State.memWrite_pagingMode (w : BusWrite) (s : State) : (s.memWrite w).pagingMode = s.pagingMode := rfl
@[simp] theorem State.memWrite_passthrough (w : BusWrite) (s : State) : (s.memWrite w).passthrough = s.passthrough := rfl
@[simp] theorem State.memWrite_mem (w : BusWrite) (s : State) : (s.memWrite w).mem = Memory.writeBytes s.mem w.addr w.width w.value := rfl
@[simp] theorem State.memWrite_trace (w : BusWrite) (s : State) : (s.memWrite w).trace = s.trace ++ [.wr w.addr w.width w.value] := rfl
@[simp] theorem State.memWrite_delivered (w : BusWrite) (s : State) : (s.memWrite w).delivered = s.delivered := rfl
@[simp] theorem State.memWrite_inbox (w : BusWrite) (s : State) : (s.memWrite w).inbox = s.inbox := rfl
@[simp] theorem State.memWrite_answers (w : BusWrite) (s : State) : (s.memWrite w).answers = s.answers := rfl
@[simp] theorem State.memWrite_draws (w : BusWrite) (s : State) : (s.memWrite w).draws = s.draws := rfl
@[simp] theorem State.memWrite_cfg (w : BusWrite) (s : State) : (s.memWrite w).cfg = s.cfg := rfl

/-! `State.ieSet` -/

@[simp] theorem State.ieSet_seqState (b : Bool) (s : State) : (s.ieSet b).seqState = s.seqState := rfl
@[simp] theorem State.ieSet_req (b : Bool) (s : State) : (s.ieSet b).req = s.req := rfl
@[simp] theorem State.ieSet_seqPc (b : Bool) (s : State) : (s.ieSet b).seqPc = s.seqPc + 1 := rfl
@[simp] theorem State.ieSet_txsr (b : Bool) (s : State) : (s.ieSet b).txsr = s.txsr := rfl
@[simp] theorem State.ieSet_rxacc (b : Bool) (s : State) : (s.ieSet b).rxacc = s.rxacc := rfl
@[simp] theorem State.ieSet_bitcnt (b : Bool) (s : State) : (s.ieSet b).bitcnt = s.bitcnt := rfl
@[simp] theorem State.ieSet_kcnt (b : Bool) (s : State) : (s.ieSet b).kcnt = s.kcnt := rfl
@[simp] theorem State.ieSet_result (b : Bool) (s : State) : (s.ieSet b).result = s.result := rfl
@[simp] theorem State.ieSet_refSum (b : Bool) (s : State) : (s.ieSet b).refSum = s.refSum := rfl
@[simp] theorem State.ieSet_matched (b : Bool) (s : State) : (s.ieSet b).matched = s.matched := rfl
@[simp] theorem State.ieSet_pageIdx (b : Bool) (s : State) : (s.ieSet b).pageIdx = s.pageIdx := rfl
@[simp] theorem State.ieSet_ieSaved (b : Bool) (s : State) : (s.ieSet b).ieSaved = s.ieSaved := rfl
@[simp] theorem State.ieSet_fault (b : Bool) (s : State) : (s.ieSet b).fault = s.fault := rfl
@[simp] theorem State.ieSet_refusal (b : Bool) (s : State) : (s.ieSet b).refusal = s.refusal := rfl
@[simp] theorem State.ieSet_data (b : Bool) (s : State) : (s.ieSet b).data = s.data := rfl
@[simp] theorem State.ieSet_direction (b : Bool) (s : State) : (s.ieSet b).direction = s.direction := rfl
@[simp] theorem State.ieSet_control (b : Bool) (s : State) : (s.ieSet b).control = s.control := rfl
@[simp] theorem State.ieSet_ie (b : Bool) (s : State) : (s.ieSet b).ie = b := rfl
@[simp] theorem State.ieSet_page (b : Bool) (s : State) : (s.ieSet b).page = s.page := rfl
@[simp] theorem State.ieSet_pagingMode (b : Bool) (s : State) : (s.ieSet b).pagingMode = s.pagingMode := rfl
@[simp] theorem State.ieSet_passthrough (b : Bool) (s : State) : (s.ieSet b).passthrough = s.passthrough := rfl
@[simp] theorem State.ieSet_mem (b : Bool) (s : State) : (s.ieSet b).mem = s.mem := rfl
@[simp] theorem State.ieSet_trace (b : Bool) (s : State) : (s.ieSet b).trace = s.trace ++ [.ieWr b] := rfl
@[simp] theorem State.ieSet_delivered (b : Bool) (s : State) : (s.ieSet b).delivered = s.delivered := rfl
@[simp] theorem State.ieSet_inbox (b : Bool) (s : State) : (s.ieSet b).inbox = s.inbox := rfl
@[simp] theorem State.ieSet_answers (b : Bool) (s : State) : (s.ieSet b).answers = s.answers := rfl
@[simp] theorem State.ieSet_draws (b : Bool) (s : State) : (s.ieSet b).draws = s.draws := rfl
@[simp] theorem State.ieSet_cfg (b : Bool) (s : State) : (s.ieSet b).cfg = s.cfg := rfl

/-! `State.hostReset` -/

@[simp] theorem State.hostReset_seqState (s : State) : (s.hostReset).seqState = .idle := rfl
@[simp] theorem State.hostReset_req (s : State) : (s.hostReset).req = ⟨0, 0, []⟩ := rfl
@[simp] theorem State.hostReset_seqPc (s : State) : (s.hostReset).seqPc = 0 := rfl
@[simp] theorem State.hostReset_txsr (s : State) : (s.hostReset).txsr = 0 := rfl
@[simp] theorem State.hostReset_rxacc (s : State) : (s.hostReset).rxacc = 0 := rfl
@[simp] theorem State.hostReset_bitcnt (s : State) : (s.hostReset).bitcnt = 0 := rfl
@[simp] theorem State.hostReset_kcnt (s : State) : (s.hostReset).kcnt = 0 := rfl
@[simp] theorem State.hostReset_result (s : State) : (s.hostReset).result = .byte 0 := rfl
@[simp] theorem State.hostReset_refSum (s : State) : (s.hostReset).refSum = 0 := rfl
@[simp] theorem State.hostReset_matched (s : State) : (s.hostReset).matched = false := rfl
@[simp] theorem State.hostReset_pageIdx (s : State) : (s.hostReset).pageIdx = 0 := rfl
@[simp] theorem State.hostReset_ieSaved (s : State) : (s.hostReset).ieSaved = false := rfl
@[simp] theorem State.hostReset_fault (s : State) : (s.hostReset).fault = s.fault := rfl
@[simp] theorem State.hostReset_refusal (s : State) : (s.hostReset).refusal = s.refusal := rfl
@[simp] theorem State.hostReset_data (s : State) : (s.hostReset).data = s.data := rfl
@[simp] theorem State.hostReset_direction (s : State) : (s.hostReset).direction = s.direction := rfl
@[simp] theorem State.hostReset_control (s : State) : (s.hostReset).control = s.control := rfl
@[simp] theorem State.hostReset_ie (s : State) : (s.hostReset).ie = s.ie := rfl
@[simp] theorem State.hostReset_page (s : State) : (s.hostReset).page = s.page := rfl
@[simp] theorem State.hostReset_pagingMode (s : State) : (s.hostReset).pagingMode = s.pagingMode := rfl
@[simp] theorem State.hostReset_passthrough (s : State) : (s.hostReset).passthrough = s.passthrough := rfl
@[simp] theorem State.hostReset_mem (s : State) : (s.hostReset).mem = s.mem := rfl
@[simp] theorem State.hostReset_trace (s : State) : (s.hostReset).trace = s.trace := rfl
@[simp] theorem State.hostReset_delivered (s : State) : (s.hostReset).delivered = s.delivered := rfl
@[simp] theorem State.hostReset_inbox (s : State) : (s.hostReset).inbox = s.inbox := rfl
@[simp] theorem State.hostReset_answers (s : State) : (s.hostReset).answers = s.answers := rfl
@[simp] theorem State.hostReset_draws (s : State) : (s.hostReset).draws = s.draws := rfl
@[simp] theorem State.hostReset_cfg (s : State) : (s.hostReset).cfg = s.cfg := rfl

/-! `State.portWrite`: its port takes the value, its one event is appended, everything else but `SEQ_PC` stands. -/

@[simp] theorem State.portWrite_seqState (r : Port) (v : Word) (s : State) : (s.portWrite r v).seqState = s.seqState := by cases r <;> rfl
@[simp] theorem State.portWrite_req (r : Port) (v : Word) (s : State) : (s.portWrite r v).req = s.req := by cases r <;> rfl
@[simp] theorem State.portWrite_seqPc (r : Port) (v : Word) (s : State) : (s.portWrite r v).seqPc = s.seqPc + 1 := by cases r <;> rfl
@[simp] theorem State.portWrite_txsr (r : Port) (v : Word) (s : State) : (s.portWrite r v).txsr = s.txsr := by cases r <;> rfl
@[simp] theorem State.portWrite_rxacc (r : Port) (v : Word) (s : State) : (s.portWrite r v).rxacc = s.rxacc := by cases r <;> rfl
@[simp] theorem State.portWrite_bitcnt (r : Port) (v : Word) (s : State) : (s.portWrite r v).bitcnt = s.bitcnt := by cases r <;> rfl
@[simp] theorem State.portWrite_kcnt (r : Port) (v : Word) (s : State) : (s.portWrite r v).kcnt = s.kcnt := by cases r <;> rfl
@[simp] theorem State.portWrite_result (r : Port) (v : Word) (s : State) : (s.portWrite r v).result = s.result := by cases r <;> rfl
@[simp] theorem State.portWrite_refSum (r : Port) (v : Word) (s : State) : (s.portWrite r v).refSum = s.refSum := by cases r <;> rfl
@[simp] theorem State.portWrite_matched (r : Port) (v : Word) (s : State) : (s.portWrite r v).matched = s.matched := by cases r <;> rfl
@[simp] theorem State.portWrite_pageIdx (r : Port) (v : Word) (s : State) : (s.portWrite r v).pageIdx = s.pageIdx := by cases r <;> rfl
@[simp] theorem State.portWrite_ieSaved (r : Port) (v : Word) (s : State) : (s.portWrite r v).ieSaved = s.ieSaved := by cases r <;> rfl
@[simp] theorem State.portWrite_fault (r : Port) (v : Word) (s : State) : (s.portWrite r v).fault = s.fault := by cases r <;> rfl
@[simp] theorem State.portWrite_refusal (r : Port) (v : Word) (s : State) : (s.portWrite r v).refusal = s.refusal := by cases r <;> rfl
@[simp] theorem State.portWrite_data (r : Port) (v : Word) (s : State) : (s.portWrite r v).data = (if r = .data then v else s.data) := by cases r <;> rfl
@[simp] theorem State.portWrite_direction (r : Port) (v : Word) (s : State) : (s.portWrite r v).direction = (if r = .direction then v else s.direction) := by cases r <;> rfl
@[simp] theorem State.portWrite_control (r : Port) (v : Word) (s : State) : (s.portWrite r v).control = (if r = .control then v else s.control) := by cases r <;> rfl
@[simp] theorem State.portWrite_ie (r : Port) (v : Word) (s : State) : (s.portWrite r v).ie = s.ie := by cases r <;> rfl
@[simp] theorem State.portWrite_page (r : Port) (v : Word) (s : State) : (s.portWrite r v).page = s.page := by cases r <;> rfl
@[simp] theorem State.portWrite_pagingMode (r : Port) (v : Word) (s : State) : (s.portWrite r v).pagingMode = s.pagingMode := by cases r <;> rfl
@[simp] theorem State.portWrite_passthrough (r : Port) (v : Word) (s : State) : (s.portWrite r v).passthrough = s.passthrough := by cases r <;> rfl
@[simp] theorem State.portWrite_mem (r : Port) (v : Word) (s : State) : (s.portWrite r v).mem = s.mem := by cases r <;> rfl
@[simp] theorem State.portWrite_trace (r : Port) (v : Word) (s : State) : (s.portWrite r v).trace = s.trace ++ [.wr (portAddr s.cfg r) 2 v.toNat] := by cases r <;> rfl
@[simp] theorem State.portWrite_delivered (r : Port) (v : Word) (s : State) : (s.portWrite r v).delivered = s.delivered := by cases r <;> rfl
@[simp] theorem State.portWrite_inbox (r : Port) (v : Word) (s : State) : (s.portWrite r v).inbox = s.inbox := by cases r <;> rfl
@[simp] theorem State.portWrite_answers (r : Port) (v : Word) (s : State) : (s.portWrite r v).answers = s.answers := by cases r <;> rfl
@[simp] theorem State.portWrite_draws (r : Port) (v : Word) (s : State) : (s.portWrite r v).draws = s.draws := by cases r <;> rfl
@[simp] theorem State.portWrite_cfg (r : Port) (v : Word) (s : State) : (s.portWrite r v).cfg = s.cfg := by cases r <;> rfl

end Sys2Proof.Machine
end

