-- ==== Sys2Proof/Laws/Pin.lean ====
section
/-!
SUPPORT. What running a pin program does: one equation per building block (R102, R104, R106, R108, R110, R170).
-/

namespace Sys2Proof.Laws

open Sys2Proof.Machine Sys2Proof.Safety

theorem runPrims_append (xs ys : List Prim) (s : State) : runPrims (xs ++ ys) s = runPrims ys (runPrims xs s) := by
  induction xs generalizing s with
  | nil => rfl
  | cons p ps ih => exact ih (p.run s)

theorem runPrims_withSetup (u : Setup) (p : Access) (ps : List Prim) (s : State) :
    runPrims (withSetup u ({ access := p } :: ps)) s = runPrims ({ access := p } :: ps) (u.apply s) := rfl

theorem countTo_succ (k : Nat) : countTo (k + 1) = countTo k ++ [k + 1] := by
  simp [countTo, List.range_succ]

/-- The knocks of a slot write one value `k` times (R101, R102). -/
theorem runPrims_txKnocks (k bit : Nat) (s : State) :
    runPrims ((countTo k).map fun j => { access := .txKnock bit j }) s =
      { s with
        kcnt := if k = 0 then s.kcnt else k
        data := if k = 0 then s.data else knockValue (s.txsr.getLsbD bit)
        trace := s.trace ++ List.replicate k (dataWr s.cfg (if s.txsr.getLsbD bit then 6 else 4))
        seqPc := s.seqPc + k } := by
  induction k with
  | zero => simp [countTo, runPrims]
  | succ k ih =>
    rw [countTo_succ, List.map_append, runPrims_append, ih]
    simp [runPrims, Prim.run, Setup.apply, Access.run, State.portWrite, State.setPort, State.emit, portAddr,
      knockValue_toNat, dataWr, List.replicate_succ', Config.portW]
    omega

theorem runPrims_rxKnocks (k : Nat) (s : State) :
    runPrims ((countTo k).map fun j => { access := .rxKnock j }) s =
      { s with
        kcnt := if k = 0 then s.kcnt else k
        data := if k = 0 then s.data else knockValue false
        trace := s.trace ++ List.replicate k (dataWr s.cfg 4)
        seqPc := s.seqPc + k } := by
  induction k with
  | zero => simp [countTo, runPrims]
  | succ k ih =>
    rw [countTo_succ, List.map_append, runPrims_append, ih]
    simp [runPrims, Prim.run, Setup.apply, Access.run, State.portWrite, State.setPort, State.emit, portAddr,
      knockValue_toNat, dataWr, List.replicate_succ', Config.portW]
    omega

/-- A write slot (R102). -/
theorem runPrims_writeSlot (k bit n : Nat) (s : State) :
    runPrims (writeSlot k bit n) s =
      { s with
        kcnt := 0
        bitcnt := n
        data := commitValue (s.txsr.getLsbD bit)
        trace := s.trace ++ writeSlotEvents s.cfg k (s.txsr.getLsbD bit)
        seqPc := s.seqPc + (k + 1) } := by
  rw [writeSlot, runPrims_append, runPrims_txKnocks]
  simp [runPrims, Prim.run, Setup.apply, Access.run, State.portWrite, State.setPort, State.emit, portAddr,
    commitValue_toNat, dataWr, writeSlotEvents, Config.portW]
  omega

theorem draw_follows_answers (addr : Nat) (n : Nat) (s : State) : s.answers.take 1 <+: [s.draw addr n] := by
  unfold State.draw
  cases s.answers <;> simp

/-- A read slot (R102, R110): the sample is the next of the answers, or a free value. -/
theorem runPrims_readSlot (n : Nat) (s : State) :
    ∃ r : Word, s.answers.take 1 <+: [r] ∧ runPrims (readSlot s.cfg.kRead n) s =
      { s with
        kcnt := 0
        bitcnt := n
        data := 0b101
        rxacc := rxShift s.rxacc r
        answers := s.answers.drop 1
        draws := s.draws + 1
        trace := s.trace ++ readSlotEvents s.cfg r
        seqPc := s.seqPc + (s.cfg.kRead + 2) } := by
  rw [readSlot, runPrims_append, runPrims_rxKnocks]
  simp only [runPrims, Prim.run, Setup.apply, Access.run, State.portWrite, State.setPort, State.emit, portAddr,
    State.sample, State.readDone, Config.portW, commitValue_toNat]
  generalize hr : State.dataDraw _ = r
  refine ⟨r, ?_, ?_⟩
  · rw [← hr]
    simp only [State.dataDraw, State.draw]
    cases s.answers <;> simp
  · simp [State.mk.injEq, readSlotEvents, dataWr, commitValue, lineP1]
    omega

/-- A run of read slots (R110): one sample a slot. -/
theorem runPrims_readSlots (ns : List Nat) (s : State) :
    ∃ rs : List Word, rs.length = ns.length ∧ s.answers.take ns.length <+: rs ∧
      runPrims (ns.flatMap (readSlot s.cfg.kRead)) s =
        { s with
          kcnt := if ns = [] then s.kcnt else 0
          bitcnt := ns.getLast?.getD s.bitcnt
          data := if ns = [] then s.data else 0b101
          rxacc := rs.foldl rxShift s.rxacc
          answers := s.answers.drop ns.length
          draws := s.draws + ns.length
          trace := s.trace ++ readEvents s.cfg rs
          seqPc := s.seqPc + ns.length * (s.cfg.kRead + 2) } := by
  induction ns generalizing s with
  | nil => exact ⟨[], rfl, by simp, by simp [runPrims, readEvents]⟩
  | cons n ns ih =>
    obtain ⟨r, hr, hs⟩ := runPrims_readSlot n s
    rw [List.flatMap_cons, runPrims_append, hs]
    obtain ⟨rs, hl, hp, ht⟩ := ih { s with
        kcnt := 0
        bitcnt := n
        data := 0b101
        rxacc := rxShift s.rxacc r
        answers := s.answers.drop 1
        draws := s.draws + 1
        trace := s.trace ++ readSlotEvents s.cfg r
        seqPc := s.seqPc + (s.cfg.kRead + 2) }
    refine ⟨r :: rs, by simp [hl], ?_, ?_⟩
    · cases h : s.answers with
      | nil => simp
      | cons a as =>
        simp only [h, List.take_succ_cons, List.take_zero, List.drop_succ_cons, List.drop_zero,
          List.cons_prefix_cons, List.prefix_nil, List.length_cons] at hr hp ⊢
        exact ⟨hr.1, hp⟩
    · rw [ht]
      simp only [State.mk.injEq]
      simp [readEvents]
      refine ⟨by ring, ?_, by omega⟩
      cases ns <;> simp [List.getLast?_cons]

/-- The wake sequence (R104). -/
theorem runPrims_wake (s : State) :
    runPrims wake s =
      { s with
        control := 1
        data := 5
        direction := 7
        trace := s.trace ++ wakeEvents s.cfg
        seqPc := s.seqPc + 4 } := by
  simp [wake, wakeEvents, runPrims, Prim.run, Setup.apply, Access.run, State.portWrite, State.setPort, State.emit, portAddr,
    dataWr, Config.portW]

theorem writeSlot_eq_cons (k bit n : Nat) : ∃ p ps, writeSlot k bit n = { access := p } :: ps := by
  cases k with
  | zero => exact ⟨_, _, rfl⟩
  | succ k => exact ⟨_, _, by simp [writeSlot, countTo, List.range_succ_eq_map]; exact ⟨rfl, rfl⟩⟩

theorem readSlot_eq_cons (k n : Nat) : ∃ p ps, readSlot k n = { access := p } :: ps := by
  cases k with
  | zero => exact ⟨_, _, rfl⟩
  | succ k => exact ⟨_, _, by simp [readSlot, countTo, List.range_succ_eq_map]; exact ⟨rfl, rfl⟩⟩

theorem range_eight : List.range 8 = [0, 1, 2, 3, 4, 5, 6, 7] := rfl

/-- The command shift-out (R106). -/
theorem runPrims_cmdOut (k : Nat) (c : Byte) (s : State) (hk : k = s.cfg.kCmd) :
    runPrims (cmdOut k c) s =
      { s with
        txsr := c
        kcnt := 0
        bitcnt := 8
        data := commitValue (c.getLsbD 0)
        trace := s.trace ++ commandEvents s.cfg c
        seqPc := s.seqPc + 8 * (s.cfg.kCmd + 1) } := by
  subst hk
  have h : runPrims (cmdOut s.cfg.kCmd c) s =
      runPrims ((List.range 8).flatMap fun j => writeSlot s.cfg.kCmd (7 - j) (j + 1)) ((Setup.loadTx c).apply s) := by
    obtain ⟨p, ps, hp⟩ := writeSlot_eq_cons s.cfg.kCmd 7 1
    rw [cmdOut, range_eight, List.flatMap_cons, hp]
    rfl
  rw [h, range_eight]
  simp only [List.flatMap_cons, List.flatMap_nil, runPrims_append, runPrims_writeSlot, Setup.apply, commandEvents,
    List.append_assoc, List.append_nil]
  simp only [State.mk.injEq]
  simp
  omega

/-- The data shift-out (R108). -/
theorem runPrims_byteOut (k : Nat) (v : Byte) (s : State) (hk : k = s.cfg.kWrite) :
    runPrims (byteOut k v) s =
      { s with
        txsr := v
        kcnt := 0
        bitcnt := 8
        data := commitValue (v.getLsbD 7)
        trace := s.trace ++ byteEvents s.cfg v
        seqPc := s.seqPc + 8 * (s.cfg.kWrite + 1) } := by
  subst hk
  have h : runPrims (byteOut s.cfg.kWrite v) s =
      runPrims ((List.range 8).flatMap fun j => writeSlot s.cfg.kWrite j (j + 1)) ((Setup.loadTx v).apply s) := by
    obtain ⟨p, ps, hp⟩ := writeSlot_eq_cons s.cfg.kWrite 0 1
    rw [byteOut, range_eight, List.flatMap_cons, hp]
    rfl
  rw [h, range_eight]
  simp only [List.flatMap_cons, List.flatMap_nil, runPrims_append, runPrims_writeSlot, Setup.apply, byteEvents,
    List.append_assoc, List.append_nil]
  simp only [State.mk.injEq]
  simp
  omega

/-- After eight samples `RXACC` is twice the byte of the samples (R110). -/
theorem foldl_rxShift_eight (rs : List Word) (h : rs.length = 8) :
    rs.foldl rxShift 0 = BitVec.ofNat 9 (2 * sampledValue rs) := by
  match rs, h with
  | [a, b, c, d, e, f, g, i], _ =>
    simp only [List.foldl_cons, List.foldl_nil, sampledValue, rxShift_eq]
    generalize a.getLsbD 1 = a; generalize b.getLsbD 1 = b; generalize c.getLsbD 1 = c; generalize d.getLsbD 1 = d
    generalize e.getLsbD 1 = e; generalize f.getLsbD 1 = f; generalize g.getLsbD 1 = g; generalize i.getLsbD 1 = i
    revert a b c d e f g i
    decide

/-- The data shift-in (R110). -/
theorem runPrims_byteIn (s : State) :
    ∃ rs : List Word, rs.length = 8 ∧ s.answers.take 8 <+: rs ∧
      runPrims (byteIn s.cfg.kRead) s =
        { s with
          kcnt := 0
          bitcnt := 8
          data := 5
          rxacc := BitVec.ofNat 9 (2 * sampledValue rs)
          answers := s.answers.drop 8
          draws := s.draws + 8
          trace := s.trace ++ readEvents s.cfg rs
          seqPc := s.seqPc + 8 * (s.cfg.kRead + 2) } := by
  have h : runPrims (byteIn s.cfg.kRead) s =
      runPrims ([1, 2, 3, 4, 5, 6, 7, 8].flatMap (readSlot s.cfg.kRead)) (Setup.clearRx.apply s) := by
    obtain ⟨p, ps, hp⟩ := readSlot_eq_cons s.cfg.kRead 1
    rw [byteIn, range_eight]
    simp only [List.flatMap_cons, hp]
    rfl
  obtain ⟨rs, hl, hp, ht⟩ := runPrims_readSlots [1, 2, 3, 4, 5, 6, 7, 8] (Setup.clearRx.apply s)
  refine ⟨rs, hl, hp, ?_⟩
  rw [h]
  refine ht.trans ?_
  simp only [Setup.apply, foldl_rxShift_eight rs hl]
  simp

/-- The data shift-out of several bytes, one after the other (R133). -/
theorem runPrims_bytesOut (k : Nat) (vs : List Byte) (s : State) (hk : k = s.cfg.kWrite) :
    runPrims (vs.flatMap (byteOut k)) s =
      { s with
        txsr := vs.getLast?.getD s.txsr
        kcnt := if vs = [] then s.kcnt else 0
        bitcnt := if vs = [] then s.bitcnt else 8
        data := (vs.getLast?.map fun v => commitValue (v.getLsbD 7)).getD s.data
        trace := s.trace ++ vs.flatMap (byteEvents s.cfg)
        seqPc := s.seqPc + vs.length * (8 * (s.cfg.kWrite + 1)) } := by
  induction vs generalizing s with
  | nil => simp [runPrims]
  | cons v vs ih =>
    rw [List.flatMap_cons, runPrims_append, runPrims_byteOut (hk := hk)]
    rw [ih]
    · simp only [State.mk.injEq]
      cases vs <;> simp [List.getLast?_cons]
      ring
    · exact hk

/-- A transaction: the wake sequence, the command byte, then the body (R130). -/
theorem runPrims_transaction (k : Nat) (cmd : Byte) (body : List Prim) (s : State) (hk : k = s.cfg.kCmd) :
    runPrims (transaction k cmd body) s = runPrims body { s with
      txsr := cmd
      kcnt := 0
      bitcnt := 8
      control := 1
      direction := 7
      data := commitValue (cmd.getLsbD 0)
      trace := s.trace ++ wakeEvents s.cfg ++ commandEvents s.cfg cmd
      seqPc := s.seqPc + 4 + 8 * (s.cfg.kCmd + 1) } := by
  rw [transaction, runPrims_append, runPrims_append, runPrims_wake, runPrims_cmdOut]
  exact hk

/-- An operation called while Idle is accepted and run (R80). -/
theorem call_idle (r : Req) (body : State → State) (s : State) (h : s.seqState = .idle) :
    s.call r body = .next (body (s.accept r)) := by simp [State.call, h]

end Sys2Proof.Laws
end

