-- ==== Sys2Proof/Laws/Probe.lean ====
section
/-!
SUPPORT. What selecting and probing pages does (R170, R172, R173): one equation for a page select, for a probe, for one page
of a class, and for the flash pages up to the first match.
-/

namespace Sys2Proof.Laws

open Sys2Proof.Machine Sys2Proof.Safety

/-- `PAGE_SELECT(p)` (R170). -/
theorem runPrims_pageSelect (c : Config) (p : Nat) (kernel : Bool) (s : State) :
    runPrims (pageSelect c p kernel) s =
      { s with
        page := if c.pageSeq p = [] then s.page else p
        pagingMode := if c.pageSeq p = [] then s.pagingMode else if kernel then .kernel else s.pagingMode
        mem := writeAll s.mem (c.pageSeq p)
        trace := s.trace ++ pageEvents c p
        seqPc := s.seqPc + (c.pageSeq p).length } := by
  unfold pageSelect pageEvents
  generalize c.pageSeq p = ws
  induction ws generalizing s with
  | nil => simp [runPrims, writeAll]
  | cons w ws ih =>
    rw [List.map_cons, runPrims, ih]
    simp [Prim.run, Setup.apply, Access.run, State.pageWrite, State.memWrite, State.emit, writeAll]
    refine ⟨by omega, ?_⟩
    cases kernel <;> simp

theorem romDraw_follows_answers (addr : Nat) (s : State) :
    (s.answers.take 1).map (BitVec.setWidth 8) <+: [s.romDraw addr] := by
  unfold State.romDraw State.draw
  cases s.answers <;> simp

/-- One value and then several that each follow the answers follow them together. -/
theorem cons_follows {α : Type} (l : List α) (v : α) (vs : List α) (n : Nat) (h1 : l.take 1 <+: [v])
    (h2 : (l.drop 1).take n <+: vs) : l.take (1 + n) <+: v :: vs := by
  cases l with
  | nil => simp
  | cons a l =>
    simp only [List.take_succ_cons, List.take_zero, List.cons_prefix_cons, List.drop_succ_cons, List.drop_zero,
      Nat.add_comm 1] at h1 h2 ⊢
    exact ⟨h1.1, h2⟩

/-- The bracket's entry and the reference read (R171, R172). -/
theorem runPrims_detectPrefix (s : State) :
    ∃ ref : Byte, (s.answers.take 1).map (BitVec.setWidth 8) <+: [ref] ∧
      runPrims detectPrefix s =
        { s with
          refSum := ref
          ieSaved := s.ie
          ie := false
          answers := s.answers.drop 1
          draws := s.draws + 1
          trace := s.trace ++ [.ieRd s.ie, .ieWr false, .rd s.cfg.checksumAddr 1 ref.toNat]
          seqPc := s.seqPc + 3 } := by
  refine ⟨(({ access := .ieClear } : Prim).run (({ access := .ieSave } : Prim).run s)).romDraw s.cfg.checksumAddr,
    romDraw_follows_answers s.cfg.checksumAddr ((s.ieSave).ieSet false), ?_⟩
  simp [detectPrefix, runPrims, Prim.run, Setup.apply, Access.run, State.ieSave, State.ieSet, State.readRef, State.emit,
    State.readDone, Config.cw]

/-- One probe (R172, R173): the value is the next of the answers, or a free value; a match moves `SEQ_PC` to the epilogue
where the probe exits. -/
theorem probe_run (p : Nat) (exits : Bool) (s : State) :
    ∃ v : Byte, (s.answers.take 1).map (BitVec.setWidth 8) <+: [v] ∧
      (Access.probe p exits).run s =
        { s with
          matched := v == s.refSum
          answers := s.answers.drop 1
          draws := s.draws + 1
          trace := s.trace ++ [.rd (s.cfg.probeAddr p) 1 v.toNat]
          seqPc := if exits && (v == s.refSum) then detectExit s.cfg else s.seqPc + 1 } := by
  refine ⟨_, romDraw_follows_answers (s.cfg.probeAddr p) s, ?_⟩
  simp only [Access.run, exitOnMatch, State.probe, State.readDone, State.emit, matchFlag]
  split <;> simp_all [Config.cw]

/-- Select a page and probe it (R172). -/
theorem runPrims_probeProgram (c : Config) (p : Nat) (exits : Bool) (s : State) (hc : c = s.cfg) :
    ∃ v : Byte, (s.answers.take 1).map (BitVec.setWidth 8) <+: [v] ∧
      runPrims (probeProgram c p exits) s =
        { s with
          matched := v == s.refSum
          page := if s.cfg.pageSeq p = [] then s.page else p
          mem := writeAll s.mem (s.cfg.pageSeq p)
          answers := s.answers.drop 1
          draws := s.draws + 1
          trace := s.trace ++ probeEvents s.cfg p v
          seqPc := if exits && (v == s.refSum) then detectExit s.cfg else s.seqPc + ((s.cfg.pageSeq p).length + 1) } := by
  subst hc
  rw [probeProgram, runPrims_append, runPrims_pageSelect]
  generalize hu : State.mk _ _ _ _ _ _ _ _ _ _ _ _ _ _ _ _ _ _ _ _ _ _ _ _ _ _ _ _ = u
  obtain ⟨v, hv, h⟩ := probe_run p exits u
  subst hu
  refine ⟨v, hv, ?_⟩
  simp only [runPrims, Prim.run, Setup.apply]
  rw [h]
  simp [probeEvents, Nat.add_assoc]

/-- Select and probe the flash page of index `i` (R172). -/
theorem runPrims_flashProgram (c : Config) (i p : Nat) (s : State) (hc : c = s.cfg) :
    ∃ v : Byte, (s.answers.take 1).map (BitVec.setWidth 8) <+: [v] ∧
      runPrims (flashProgram c i p) s =
        { s with
          matched := v == s.refSum
          pageIdx := i
          page := if s.cfg.pageSeq p = [] then s.page else p
          mem := writeAll s.mem (s.cfg.pageSeq p)
          answers := s.answers.drop 1
          draws := s.draws + 1
          trace := s.trace ++ probeEvents s.cfg p v
          seqPc := if v == s.refSum then detectExit s.cfg else s.seqPc + ((s.cfg.pageSeq p).length + 1) } := by
  have h : runPrims (flashProgram c i p) s = runPrims (probeProgram c p true) ((Setup.pageIndex i).apply s) := by
    unfold flashProgram probeProgram pageSelect
    cases c.pageSeq p <;> rfl
  obtain ⟨v, hv, hr⟩ := runPrims_probeProgram c p true ((Setup.pageIndex i).apply s) hc
  exact ⟨v, hv, by rw [h, hr]; simp [Setup.apply]; rfl⟩

/-- The page commanded after selecting the pages of a list, one after the other. -/
def lastCommanded (c : Config) (old : Nat) (pages : List Nat) : Nat :=
  (pages.filter fun p => !(c.pageSeq p).isEmpty).getLast?.getD old

theorem lastCommanded_cons (c : Config) (old p : Nat) (ps : List Nat) :
    lastCommanded c old (p :: ps) = lastCommanded c (if c.pageSeq p = [] then old else p) ps := by
  unfold lastCommanded
  by_cases h : c.pageSeq p = []
  · simp [h]
  · simp [h, List.getLast?_cons]

theorem writeAll_append (m : List Host.Cell) (xs ys : List BusWrite) :
    writeAll m (xs ++ ys) = writeAll (writeAll m xs) ys := by simp [writeAll]

/-- The flash pages from index `i` on, probed up to and including the first match (R172, R173). -/
theorem probeFlash_run (i : Nat) (pages : List Nat) (s : State) (hs : s.matched = false) :
    ∃ vs : List Byte, vs.length ≤ pages.length ∧
      (s.answers.take vs.length).map (BitVec.setWidth 8) <+: vs ∧
      (∀ k, k + 1 < vs.length → vs[k]? ≠ some s.refSum) ∧
      (vs.getLast? ≠ some s.refSum → vs.length = pages.length) ∧
      probeFlash i pages s =
        { s with
          matched := vs.getLast? == some s.refSum
          pageIdx := if vs = [] then s.pageIdx else i + vs.length - 1
          page := lastCommanded s.cfg s.page (pages.take vs.length)
          mem := writeAll s.mem ((pages.take vs.length).flatMap s.cfg.pageSeq)
          answers := s.answers.drop vs.length
          draws := s.draws + vs.length
          trace := s.trace ++ (pages.zip vs).flatMap fun pv => probeEvents s.cfg pv.1 pv.2
          seqPc := if vs.getLast? == some s.refSum then detectExit s.cfg
            else s.seqPc + (pages.map fun p => (s.cfg.pageSeq p).length + 1).sum } := by
  induction pages generalizing i s with
  | nil => exact ⟨[], by simp, by simp, by simp, by simp, by simp [probeFlash, lastCommanded, writeAll]; simp [← hs]⟩
  | cons p ps ih =>
    obtain ⟨v, hv, hr⟩ := runPrims_flashProgram s.cfg i p s rfl
    unfold probeFlash
    simp only [hr]
    by_cases hm : v = s.refSum
    · subst hm
      refine ⟨[s.refSum], by simp, by simpa using hv, by simp, by simp, ?_⟩
      simp [lastCommanded]
      split <;> rfl
    · have hb : (v == s.refSum) = false := by simpa using hm
      simp only [hb, Bool.false_eq_true, if_false]
      generalize hu : State.mk _ _ _ _ _ _ _ _ _ _ _ _ _ _ _ _ _ _ _ _ _ _ _ _ _ _ _ _ = u
      obtain ⟨vs, h1, h2, h3, h4, h5⟩ := ih (i + 1) u (by rw [← hu])
      subst hu
      simp only at h2 h3 h4 h5
      have hlast : (v :: vs).getLast? = some s.refSum ↔ vs.getLast? = some s.refSum := by
        cases vs <;> simp [List.getLast?_cons, hm]
      refine ⟨v :: vs, by simpa using h1, ?_, ?_, ?_, ?_⟩
      · rw [List.length_cons, Nat.add_comm, List.map_take]
        exact cons_follows _ _ _ _ (by simpa using hv) (by simpa using h2)
      · intro k hk
        cases k with
        | zero => simpa using hm
        | succ k => simpa using h3 k (by simpa using hk)
      · intro h
        simp [h4 (fun e => h (hlast.2 e))]
      · rw [h5]
        have hbeq : ((v :: vs).getLast? == some s.refSum) = (vs.getLast? == some s.refSum) := by
          rw [Bool.eq_iff_iff]
          simpa using hlast
        simp only [hbeq, State.mk.injEq]
        simp [lastCommanded_cons, writeAll_append]
        cases vs with
        | nil =>
          simp
          omega
        | cons w ws =>
          simp
          constructor
          · split <;> omega
          · omega

/-- The three classes of pages, probed up to and including the first non-bootloader match (R172, R173). -/
theorem probeClasses_run (s : State) :
    ∃ vs : List Byte, 2 ≤ vs.length ∧ vs.length ≤ (probedPages s.cfg).length ∧
      (s.answers.take vs.length).map (BitVec.setWidth 8) <+: vs ∧
      (∀ k, 1 ≤ k → k + 1 < vs.length → vs[k]? ≠ some s.refSum) ∧
      (vs.getLast? ≠ some s.refSum → vs.length = (probedPages s.cfg).length) ∧
      probeClasses s =
        { s with
          matched := vs.getLast? == some s.refSum
          pageIdx := if vs.length = 2 then s.pageIdx else vs.length - 3
          page := lastCommanded s.cfg s.page ((probedPages s.cfg).take vs.length)
          mem := writeAll s.mem (((probedPages s.cfg).take vs.length).flatMap s.cfg.pageSeq)
          answers := s.answers.drop vs.length
          draws := s.draws + vs.length
          trace := s.trace ++ ((probedPages s.cfg).zip vs).flatMap fun pv => probeEvents s.cfg pv.1 pv.2
          seqPc := if vs.getLast? == some s.refSum then detectExit s.cfg
            else s.seqPc + ((probedPages s.cfg).map fun p => (s.cfg.pageSeq p).length + 1).sum } := by
  unfold probeClasses
  obtain ⟨v, hv, e⟩ := runPrims_probeProgram s.cfg s.cfg.bootPage false s rfl
  rw [e]
  generalize hu : State.mk _ _ _ _ _ _ _ _ _ _ _ _ _ _ _ _ _ _ _ _ _ _ _ _ _ _ _ _ = u
  obtain ⟨w, hw, f⟩ := runPrims_probeProgram s.cfg s.cfg.psramPage true u (by rw [← hu])
  rw [f]
  subst hu
  simp only at hw
  have follow : ∀ vs : List Byte, ((s.answers.drop 2).take vs.length).map (BitVec.setWidth 8) <+: vs →
      (s.answers.take (v :: w :: vs).length).map (BitVec.setWidth 8) <+: v :: w :: vs := by
    intro vs hvs
    rw [List.length_cons, Nat.add_comm, List.map_take]
    refine cons_follows _ _ _ _ (by simpa using hv) ?_
    rw [List.length_cons, Nat.add_comm]
    exact cons_follows _ _ _ _ (by simpa using hw) (by simpa using hvs)
  by_cases hm : w = s.refSum
  · subst hm
    refine ⟨[v, s.refSum], by simp, by simp [probedPages], follow [] (by simp), ?_, by simp, ?_⟩
    · intro k h1 h2
      simp at h2
      omega
    · simp [probedPages, lastCommanded_cons, writeAll_append]
      rfl
  · have hb : (w == s.refSum) = false := by simpa using hm
    simp only [hb, Bool.and_false, Bool.false_eq_true, if_false]
    generalize hu : State.mk _ _ _ _ _ _ _ _ _ _ _ _ _ _ _ _ _ _ _ _ _ _ _ _ _ _ _ _ = u
    obtain ⟨vs, h1, h2, h3, h4, h5⟩ := probeFlash_run 0 s.cfg.flashPages u (by rw [← hu])
    have hlast : (v :: w :: vs).getLast? = some s.refSum ↔ vs.getLast? = some s.refSum := by
      cases vs <;> simp [List.getLast?_cons, hm]
    have hbeq : ((v :: w :: vs).getLast? == some s.refSum) = (vs.getLast? == some s.refSum) := by
      rw [Bool.eq_iff_iff]
      simpa using hlast
    subst hu
    simp only at h2 h3 h4 h5 ⊢
    refine ⟨v :: w :: vs, by simp, by simp [probedPages]; omega, follow vs (by simpa using h2), ?_, ?_, ?_⟩
    · intro k k1 k2
      match k, k1 with
      | 1, _ => simpa using hm
      | k + 2, _ => simpa using h3 k (by simp at k2; omega)
    · intro h
      simp [probedPages, h4 fun g => h (hlast.2 g)]
    · rw [h5]
      simp only [hbeq, State.mk.injEq]
      simp [probedPages, lastCommanded_cons, writeAll_append]
      cases vs with
      | nil =>
        simp
        omega
      | cons x xs =>
        simp
        refine ⟨?_, by omega, by omega⟩
        split <;> omega

theorem flashPrograms_length (c : Config) (i : Nat) (pages : List Nat) :
    (flashPrograms c i pages).length = (pages.map fun p => (c.pageSeq p).length + 1).sum := by
  induction pages generalizing i with
  | nil => rfl
  | cons p ps ih =>
    simp only [flashPrograms, List.length_append, ih, List.map_cons, List.sum_cons]
    congr 1
    unfold flashProgram probeProgram pageSelect
    cases c.pageSeq p <;> simp [withSetup]

/-- The position of DETECT's epilogue: 3 events and `L_p + 1` for each page (R176). -/
theorem detectExit_eq (c : Config) :
    detectExit c = 3 + ((probedPages c).map fun p => (c.pageSeq p).length + 1).sum := by
  simp only [detectExit, detectBody, List.length_append, flashPrograms_length, probedPages, List.map_cons, List.sum_cons,
    detectPrefix, probeProgram, pageSelect]
  simp
  omega

end Sys2Proof.Laws
end

