-- ==== Sys2Proof/Laws/Programs.lean ====
section
/-!
SUPPORT. What the primitives of the pin programs can be, said once for every operation: which port values they write, how far
their counters go, where their page writes come from; and the limits a well-formed configuration gives them.
-/

namespace Sys2Proof.Laws

open Sys2Proof.Machine

/-- What a primitive of a pin program may be under a configuration (R27, R31, R36, R102, R170). -/
def allowedPrim (c : Config) (p : Prim) : Prop :=
  (match p.access with
    | .port .control v => v = 1
    | .port .direction v => v = 7 ∨ v = 5
    | .port .data v => v = 1 ∨ v = 4 ∨ v = 5
    | .pageWrite _ _ w => ∃ e ∈ c.pageSeqs, w ∈ e.2
    | .txKnock _ k => k ≤ c.kCmd ∨ k ≤ c.kWrite
    | .rxKnock k => k ≤ c.kRead
    | .txCommit _ n => n ≤ 8
    | .rxSample n => n ≤ 8
    | _ => True) ∧
  (match p.setup with
    | .pageIndex i => i ≤ c.flashPages.length
    | _ => True)

theorem withSetup_allowed (c : Config) (u : Setup) (ps : List Prim)
    (hu : match u with
      | .pageIndex i => i ≤ c.flashPages.length
      | _ => True)
    (h : ∀ p ∈ ps, allowedPrim c p) : ∀ p ∈ withSetup u ps, allowedPrim c p := by
  cases ps with
  | nil => simp [withSetup]
  | cons p ps =>
    intro q hq
    simp only [withSetup, List.mem_cons] at hq
    rcases hq with rfl | hq
    · exact ⟨(h p (by simp)).1, hu⟩
    · exact h q (by simp [hq])

theorem mem_countTo (k j : Nat) : j ∈ countTo k ↔ 1 ≤ j ∧ j ≤ k := by
  simp only [countTo, List.mem_map, List.mem_range]
  constructor
  · rintro ⟨a, ha, rfl⟩
    omega
  · intro h
    exact ⟨j - 1, by omega, by omega⟩

theorem writeSlot_allowed (c : Config) (k bit n : Nat) (hk : k = c.kCmd ∨ k = c.kWrite) (hn : n ≤ 8) :
    ∀ p ∈ writeSlot k bit n, allowedPrim c p := by
  intro p hp
  simp [writeSlot, mem_countTo] at hp
  rcases hp with ⟨j, hj, rfl⟩ | rfl
  · simp [allowedPrim]
    omega
  · simpa [allowedPrim] using hn

theorem readSlot_allowed (c : Config) (n : Nat) (hn : n ≤ 8) : ∀ p ∈ readSlot c.kRead n, allowedPrim c p := by
  intro p hp
  simp [readSlot, mem_countTo] at hp
  rcases hp with ⟨j, hj, rfl⟩ | rfl | rfl
  · simp [allowedPrim]
    omega
  · simp [allowedPrim]
  · simpa [allowedPrim] using hn

theorem cmdOut_allowed (c : Config) (v : Byte) : ∀ p ∈ cmdOut c.kCmd v, allowedPrim c p := by
  refine withSetup_allowed c _ _ trivial fun p hp => ?_
  obtain ⟨j, hj, hp⟩ := List.mem_flatMap.1 hp
  exact writeSlot_allowed c _ _ _ (.inl rfl) (by simpa using hj) p hp

theorem byteOut_allowed (c : Config) (v : Byte) : ∀ p ∈ byteOut c.kWrite v, allowedPrim c p := by
  refine withSetup_allowed c _ _ trivial fun p hp => ?_
  obtain ⟨j, hj, hp⟩ := List.mem_flatMap.1 hp
  exact writeSlot_allowed c _ _ _ (.inr rfl) (by simpa using hj) p hp

theorem byteIn_allowed (c : Config) : ∀ p ∈ byteIn c.kRead, allowedPrim c p := by
  refine withSetup_allowed c _ _ trivial fun p hp => ?_
  obtain ⟨j, hj, hp⟩ := List.mem_flatMap.1 hp
  exact readSlot_allowed c _ (by simpa using hj) p hp

theorem wake_allowed (c : Config) : ∀ p ∈ wake, allowedPrim c p := by
  intro p hp
  simp [wake] at hp
  rcases hp with rfl | rfl | rfl | rfl <;> simp [allowedPrim]

theorem transaction_allowed (c : Config) (v : Byte) (body : List Prim) (h : ∀ p ∈ body, allowedPrim c p) :
    ∀ p ∈ transaction c.kCmd v body, allowedPrim c p := by
  intro p hp
  simp only [transaction, List.mem_append] at hp
  rcases hp with (hp | hp) | hp
  · exact wake_allowed c p hp
  · exact cmdOut_allowed c v p hp
  · exact h p hp

/-- A write of `PAGE_SEQ(p)` stands in the configuration's table. -/
theorem pageSeq_mem (c : Config) (p : Nat) (w : BusWrite) (h : w ∈ c.pageSeq p) : ∃ e ∈ c.pageSeqs, w ∈ e.2 := by
  unfold Config.pageSeq at h
  generalize c.pageSeqs = l at h ⊢
  induction l with
  | nil => simp at h
  | cons e l ih =>
    obtain ⟨a, b⟩ := e
    rw [List.lookup_cons] at h
    split at h
    · exact ⟨(a, b), by simp, h⟩
    · obtain ⟨e, he, hw⟩ := ih h
      exact ⟨e, by simp [he], hw⟩

theorem pageSelect_allowed (c : Config) (p : Nat) (kernel : Bool) : ∀ q ∈ pageSelect c p kernel, allowedPrim c q := by
  intro q hq
  obtain ⟨w, hw, rfl⟩ := List.mem_map.1 hq
  exact ⟨pageSeq_mem c p w hw, trivial⟩

theorem probeProgram_allowed (c : Config) (p : Nat) (exits : Bool) :
    ∀ q ∈ probeProgram c p exits, allowedPrim c q := by
  intro q hq
  simp only [probeProgram, List.mem_append, List.mem_singleton] at hq
  rcases hq with hq | rfl
  · exact pageSelect_allowed _ _ _ _ hq
  · simp [allowedPrim]

theorem flashPrograms_allowed (c : Config) (i : Nat) (pages : List Nat) (h : i + pages.length ≤ c.flashPages.length) :
    ∀ q ∈ flashPrograms c i pages, allowedPrim c q := by
  induction pages generalizing i with
  | nil => simp [flashPrograms]
  | cons p ps ih =>
    intro q hq
    simp only [List.length_cons] at h
    simp only [flashPrograms, List.mem_append] at hq
    rcases hq with hq | hq
    · exact withSetup_allowed c _ _ (show i ≤ _ by omega) (probeProgram_allowed _ _ _) q hq
    · exact ih (i + 1) (by omega) q hq

/-- Every primitive of every operation's pin program is an allowed one. -/
theorem program_allowed (c : Config) (i : Instr) : ∀ p ∈ programOf c i, allowedPrim c p := by
  intro p hp
  cases i <;> simp only [programOf] at hp
  case sendCmd v => exact cmdOut_allowed c v p hp
  case readByte => exact byteIn_allowed c p hp
  case writeByte v => exact byteOut_allowed c v p hp
  case readStatus =>
    refine transaction_allowed c _ _ (fun q hq => ?_) p hp
    rcases List.mem_cons.1 hq with rfl | hq
    · simp [allowedPrim]
    · exact byteIn_allowed c q hq
  case writeStatus v => exact transaction_allowed c _ _ (byteOut_allowed c v) p hp
  case writeDatetime m pm f =>
    refine transaction_allowed c _ _ (fun q hq => ?_) p hp
    obtain ⟨v, _, hq⟩ := List.mem_flatMap.1 hq
    exact byteOut_allowed c v q hq
  case resetChip =>
    refine transaction_allowed c _ _ (fun q hq => ?_) p hp
    obtain rfl := List.mem_singleton.1 hq
    simp [allowedPrim, knockValue, lineP1]
  case detect =>
    simp [detectProgram, detectBody, detectPrefix] at hp
    rcases hp with rfl | rfl | rfl | hp | hp | hp | rfl
    · simp [allowedPrim]
    · simp [allowedPrim]
    · simp [allowedPrim]
    · exact probeProgram_allowed _ _ _ _ hp
    · exact probeProgram_allowed _ _ _ _ hp
    · exact flashPrograms_allowed c 0 _ (by simp) p hp
    · simp [allowedPrim]
  case enableAlt =>
    simp [enableAltProgram] at hp
    rcases hp with hp | rfl
    · exact pageSelect_allowed _ _ _ _ hp
    · simp [allowedPrim]
  all_goals simp at hp

/-- The limits a well-formed configuration gives (R9, R54, R170). -/
theorem config_wf_limits (c : Config) (h : c.wf = true) :
    c.kCmd ≤ 5 ∧ c.kWrite ≤ 5 ∧ c.kRead ≤ 5 ∧ c.flashPages.length ≤ 512 ∧
    Config.portsOk c.gpioData c.gpioDir c.gpioCtrl = true ∧
    (∀ e ∈ c.pageSeqs, ∀ w ∈ e.2, Config.writeOk c.gpioData c.gpioDir c.gpioCtrl w = true) ∧
    Config.writeOk c.gpioData c.gpioDir c.gpioCtrl c.rtcEn = true := by
  simp only [Config.wf, Config.knocksOk, Bool.and_eq_true, decide_eq_true_eq, List.all_eq_true] at h
  refine ⟨by omega, by omega, by omega, h.1.1.1.2, h.1.1.2, h.1.2, h.2⟩

end Sys2Proof.Laws
end

