-- ==== Sys2Proof/Laws/Step.lean ====
section
/-!
SUPPORT. What one primitive, one instruction and one step can do, said once: the fields a primitive leaves alone, the cases of
a step, and how a property is carried through an instruction and through a step.
-/

namespace Sys2Proof.Laws

open Sys2Proof.Machine

/-- A primitive leaves the sequencer's bookkeeping, the marks, the host's moves and the configuration alone. -/
theorem prim_run_frame (p : Prim) (s : State) :
    (p.run s).seqState = s.seqState ∧ (p.run s).req = s.req ∧ (p.run s).result = s.result ∧
    (p.run s).fault = s.fault ∧ (p.run s).refusal = s.refusal ∧ (p.run s).delivered = s.delivered ∧
    (p.run s).inbox = s.inbox ∧ (p.run s).cfg = s.cfg := by
  obtain ⟨u, a⟩ := p
  cases u <;> cases a <;>
    simp [Prim.run, Setup.apply, Access.run, State.sample, State.ieSave, State.readRef, State.pageWrite, State.rtcEnable,
      exitOnMatch, State.probe] <;> split <;> simp

theorem prim_run_cfg (p : Prim) (s : State) : (p.run s).cfg = s.cfg := (prim_run_frame p s).2.2.2.2.2.2.2

/-- A primitive is exactly one event (R11, R55). -/
theorem prim_run_trace (p : Prim) (s : State) : ∃ e, (p.run s).trace = s.trace ++ [e] := by
  obtain ⟨u, a⟩ := p
  cases u <;> cases a <;>
    simp [Prim.run, Setup.apply, Access.run, State.sample, State.ieSave, State.readRef, State.pageWrite, State.rtcEnable,
      exitOnMatch, State.probe] <;> split <;> simp

/-- A property that every primitive of a program keeps is kept by the program. -/
theorem runPrims_keeps {P : State → Prop} (c : Config) (ps : List Prim) (s : State) (hc : s.cfg = c)
    (h : ∀ p ∈ ps, ∀ t, t.cfg = c → P t → P (p.run t)) (hs : P s) : P (runPrims ps s) := by
  induction ps generalizing s with
  | nil => exact hs
  | cons p ps ih =>
    exact ih (p.run s) ((prim_run_cfg p s).trans hc) (fun q hq => h q (List.mem_cons_of_mem p hq))
      (h p List.mem_cons_self s hc hs)

theorem runPrims_cfg (ps : List Prim) (s : State) : (runPrims ps s).cfg = s.cfg :=
  runPrims_keeps (P := fun t => t.cfg = s.cfg) s.cfg ps s rfl (fun p _ t _ h => (prim_run_cfg p t).trans h) rfl

/-- A property that every primitive of the flash programs keeps is kept by the flash probes. -/
theorem probeFlash_keeps {P : State → Prop} (c : Config) (i : Nat) (pages : List Nat) (s : State) (hc : s.cfg = c)
    (h : ∀ p ∈ flashPrograms c i pages, ∀ t, t.cfg = c → P t → P (p.run t)) (hs : P s) : P (probeFlash i pages s) := by
  induction pages generalizing i s with
  | nil => exact hs
  | cons q qs ih =>
    have ht : P (runPrims (flashProgram s.cfg i q) s) := by
      subst hc
      exact runPrims_keeps s.cfg _ s rfl (fun p hp => h p (List.mem_append_left _ hp)) hs
    unfold probeFlash
    simp only
    split
    · exact ht
    · exact ih (i + 1) _ ((runPrims_cfg _ _).trans hc) (fun p hp => h p (List.mem_append_right _ hp)) ht

/-- A property that every primitive of DETECT's program keeps is kept by its run. -/
theorem runDetect_keeps {P : State → Prop} (s : State)
    (h : ∀ p ∈ detectProgram s.cfg, ∀ t, t.cfg = s.cfg → P t → P (p.run t)) (hs : P s) : P (runDetect s) := by
  generalize hc : s.cfg = c at h
  have h1 : P (runPrims detectPrefix s) := by
    refine runPrims_keeps c _ s hc (fun p hp => h p ?_) hs
    simp only [detectProgram, detectBody, List.mem_append]
    tauto
  have h2 : P (probeClasses (runPrims detectPrefix s)) := by
    have c1 : (runPrims detectPrefix s).cfg = c := (runPrims_cfg _ _).trans hc
    have hb : P (runPrims (probeProgram (runPrims detectPrefix s).cfg (runPrims detectPrefix s).cfg.psramPage true)
        (runPrims (probeProgram (runPrims detectPrefix s).cfg (runPrims detectPrefix s).cfg.bootPage false)
          (runPrims detectPrefix s))) := by
      rw [c1]
      refine runPrims_keeps c _ _ ((runPrims_cfg _ _).trans c1) (fun p hp => h p ?_)
        (runPrims_keeps c _ _ c1 (fun p hp => h p ?_) h1) <;>
      · simp only [detectProgram, detectBody, List.mem_append]
        tauto
    unfold probeClasses
    simp only
    split
    · exact hb
    · have c2 : (runPrims (probeProgram (runPrims detectPrefix s).cfg (runPrims detectPrefix s).cfg.psramPage true)
          (runPrims (probeProgram (runPrims detectPrefix s).cfg (runPrims detectPrefix s).cfg.bootPage false)
            (runPrims detectPrefix s))).cfg = c := (runPrims_cfg _ _).trans ((runPrims_cfg _ _).trans c1)
      refine probeFlash_keeps c 0 _ _ c2 (fun p hp => h p ?_) hb
      rw [c2] at hp
      simp only [detectProgram, detectBody, List.mem_append]
      tauto
  have c3 : (probeClasses (runPrims detectPrefix s)).cfg = c := by
    have hp : (runPrims detectPrefix s).cfg = c := (runPrims_cfg _ _).trans hc
    unfold probeClasses
    simp only
    split
    · exact (runPrims_cfg _ _).trans ((runPrims_cfg _ _).trans hp)
    · exact probeFlash_keeps (P := fun t => t.cfg = c) c 0 _ _ ((runPrims_cfg _ _).trans ((runPrims_cfg _ _).trans hp))
        (fun p _ t _ ht => (prim_run_cfg p t).trans ht) ((runPrims_cfg _ _).trans ((runPrims_cfg _ _).trans hp))
  exact h { access := .ieRestore } (by simp [detectProgram]) _ c3 h2

/-- What carries a property through an instruction: its acceptance, its primitives, and its end. -/
structure OperationKeeps (P : State → Prop) : Prop where
  refuse : ∀ s, P s → P s.refuse
  accept : ∀ r s, P s → P (s.accept r)
  complete : ∀ r s, P s → P (s.complete r)
  raise : ∀ m s, P s → P (s.raiseFault m)
  prim : ∀ i p s, p ∈ programOf s.cfg i → P s → P (p.run s)

theorem OperationKeeps.program {P : State → Prop} (k : OperationKeeps P) (i : Instr) (s : State) (hs : P s) :
    P (runPrims (programOf s.cfg i) s) :=
  runPrims_keeps s.cfg _ s rfl (fun p hp t ht h => k.prim i p t (ht ▸ hp) h) hs

theorem call_next {r : Req} {body : State → State} {s t : State} (h : s.call r body = .next t) :
    s.seqState = .idle ∧ t = body (s.accept r) := by
  unfold State.call at h
  split at h
  · exact ⟨‹_›, by cases h; rfl⟩
  · cases h

/-- A property is carried through every instruction. -/
theorem exec_keeps {P : State → Prop} (k : OperationKeeps P) {i : Instr} {s t : State} (h : exec i s = .next t)
    (hs : P s) : P t := by
  have line : ∀ (r : Req) (j : Instr) (res : State → Option Result),
      P ((runPrims (programOf (s.accept r).cfg j) (s.accept r)).complete
        (res (runPrims (programOf (s.accept r).cfg j) (s.accept r)))) :=
    fun r j res => k.complete _ _ (k.program j _ (k.accept r s hs))
  have wire : ∀ c : Byte, sendCommand c s = .next t → P t := by
    intro c hc
    obtain ⟨-, rfl⟩ := call_next hc
    exact line _ (.sendCmd c) fun _ => none
  cases i with
  | sendCmd c => exact wire c h
  | readByte =>
    simp only [exec, execReadByte] at h
    obtain ⟨-, rfl⟩ := call_next h
    exact line _ .readByte fun t => some (.byte (rxByte t.rxacc))
  | writeByte v =>
    simp only [exec, execWriteByte] at h
    obtain ⟨-, rfl⟩ := call_next h
    exact line _ (.writeByte v) fun _ => none
  | readStatus =>
    simp only [exec, execReadStatus] at h
    obtain ⟨-, rfl⟩ := call_next h
    exact line _ .readStatus fun t => some (.byte (rxByte t.rxacc))
  | writeStatus v =>
    simp only [exec, execWriteStatus] at h
    obtain ⟨-, rfl⟩ := call_next h
    exact line _ (.writeStatus v) fun _ => none
  | writeDatetime mode12 pm f =>
    simp only [exec, execWriteDatetime] at h
    obtain ⟨-, rfl⟩ := call_next h
    split
    · exact k.raise _ _ (k.accept _ s hs)
    · exact line _ (.writeDatetime mode12 pm f) fun _ => none
  | resetChip =>
    simp only [exec, execResetChip] at h
    obtain ⟨-, rfl⟩ := call_next h
    exact line _ .resetChip fun _ => none
  | toBcd n =>
    simp only [exec, execToBcd] at h
    obtain ⟨-, rfl⟩ := call_next h
    split
    · exact k.raise _ _ (k.accept _ s hs)
    · exact k.complete _ _ (k.accept _ s hs)
  | fromBcd b =>
    simp only [exec, execFromBcd] at h
    obtain ⟨-, rfl⟩ := call_next h
    split
    · exact k.raise _ _ (k.accept _ s hs)
    · exact k.complete _ _ (k.accept _ s hs)
  | detect =>
    simp only [exec, execDetect] at h
    obtain ⟨-, rfl⟩ := call_next h
    exact k.complete _ _ (runDetect_keeps _ (fun p hp t ht h => k.prim .detect p t (ht ▸ hp) h) (k.accept _ s hs))
  | enableAlt =>
    simp only [exec, execEnableAlt] at h
    obtain ⟨-, rfl⟩ := call_next h
    exact line _ .enableAlt fun _ => none
  | refused why p =>
    simp only [exec, execRefused] at h
    split at h
    · cases h
      exact k.refuse s hs
    · cases h
  | cmdMaskWrite0 => exact wire _ h
  | cmdMaskRead0 => exact wire _ h
  | cmdMaskWrite1 => exact wire _ h
  | cmdMaskRead1 => exact wire _ h
  | cmdMaskWrite2 => exact wire _ h
  | cmdMaskRead2 => exact wire _ h
  | cmdMaskWrite3 => exact wire _ h
  | cmdMaskRead3 => exact wire _ h
  | cmdMaskWrite4 => exact wire _ h
  | cmdMaskRead4 => exact wire _ h
  | cmdMaskWrite5 => exact wire _ h
  | cmdMaskRead5 => exact wire _ h
  | cmdMaskWrite6 => exact wire _ h
  | cmdMaskRead6 => exact wire _ h
  | cmdMaskWrite7 => exact wire _ h
  | cmdMaskRead7 => exact wire _ h

/-- What a step that answers a next state can be. -/
theorem step_cases {s t : State} (h : step s = .next t) :
    (s.seqState = .idle ∧ s.inbox = [] ∧ t = s) ∨
    (∃ p rest, s.seqState = .idle ∧ s.inbox = .call p :: rest ∧ exec (decode p) { s with inbox := rest } = .next t) ∨
    (∃ p rest, s.seqState = .idle ∧ s.inbox = .present p :: rest ∧ t = { s with inbox := rest }.acceptStep p) ∨
    (∃ b rest, s.seqState = .idle ∧ s.inbox = .setIe b :: rest ∧ t = { s with inbox := rest, ie := b }) ∨
    (∃ n rest, s.inbox = .reset n :: rest ∧ (s.seqState = .idle ∨ n ≤ s.seqPc) ∧
      t = { s with inbox := rest }.hostReset) ∨
    (s.seqState = .busy ∧ s.req.instr.accepted = true ∧ t = advance s.req.instr s) := by
  unfold step State.turn at h
  cases hs : s.seqState with
  | idle =>
    simp only [hs, State.idleTurn] at h
    split at h <;> rename_i hi <;> split at hi <;> cases hi
    · exact .inr (.inl ⟨_, _, rfl, ‹_›, h⟩)
    · cases h; exact .inl ⟨rfl, ‹_›, rfl⟩
    · cases h; exact .inr (.inr (.inl ⟨_, _, rfl, ‹_›, rfl⟩))
    · cases h; exact .inr (.inr (.inr (.inl ⟨_, _, rfl, ‹_›, rfl⟩)))
    · cases h; exact .inr (.inr (.inr (.inr (.inl ⟨_, _, ‹_›, .inl rfl, rfl⟩))))
  | busy =>
    have htick : tick s = .next t → s.req.instr.accepted = true ∧ t = advance s.req.instr s := by
      intro h
      unfold tick at h
      split at h
      · exact ⟨‹_›, by cases h; rfl⟩
      · cases h
    simp only [hs, State.busyTurn] at h
    split at h <;> rename_i hi <;> split at hi
    · split at hi <;> cases hi
    · cases hi
    · split at hi <;> cases hi
      cases h
      exact .inr (.inr (.inr (.inr (.inl ⟨_, _, ‹_›, .inr ‹_›, rfl⟩))))
    · cases hi
    · exact .inr (.inr (.inr (.inr (.inr ⟨rfl, htick h⟩))))
    · exact .inr (.inr (.inr (.inr (.inr ⟨rfl, htick h⟩))))

/-- What carries a property through a step, beside what carries it through an instruction. -/
structure StepKeeps (P : State → Prop) : Prop extends OperationKeeps P where
  inbox : ∀ l s, P s → P { s with inbox := l }
  setIe : ∀ b s, s.seqState = .idle → P s → P { s with ie := b }
  hostReset : ∀ s, P s → P s.hostReset

/-- A property is carried through a step of the operation in progress. -/
theorem advance_keeps {P : State → Prop} (k : OperationKeeps P) (i : Instr) (s : State) (hs : P s) : P (advance i s) := by
  unfold advance
  split
  · exact k.raise _ _ hs
  · split
    · exact k.prim i _ s (List.mem_of_getElem? ‹_›) hs
    · exact k.complete _ _ hs

/-- A property is carried through every step. -/
theorem step_keeps {P : State → Prop} (k : StepKeeps P) {s t : State} (h : step s = .next t) (hs : P s) : P t := by
  obtain ⟨-, -, rfl⟩ | ⟨p, rest, -, -, he⟩ | ⟨p, rest, -, -, rfl⟩ | ⟨b, rest, hi, -, rfl⟩ | ⟨n, rest, -, -, rfl⟩ |
    ⟨-, -, rfl⟩ := step_cases h
  · exact hs
  · exact exec_keeps k.toOperationKeeps he (k.inbox rest s hs)
  · unfold State.acceptStep
    split
    · exact k.accept _ _ (k.inbox rest s hs)
    · exact k.refuse _ (k.inbox rest s hs)
  · exact k.setIe b { s with inbox := rest } hi (k.inbox rest s hs)
  · exact k.hostReset _ (k.inbox rest s hs)
  · exact advance_keeps k.toOperationKeeps _ _ hs

end Sys2Proof.Laws
end

