-- ==== Sys2Proof/Laws/Sequencer.lean ====
section
/-!
SUPPORT. The sequencer event by event: what a step of an operation in progress is, and that running a program event by event
to its return gives what the whole-operation view of it gives (R20, R24, R34).
-/

namespace Sys2Proof.Laws

open Sys2Proof.Machine Sys2Proof.Safety

theorem run_succ {s t : State} (h : step s = .next t) (k : Nat) :
    Host.Core.run Sys2Proof.core (k + 1) s = Host.Core.run Sys2Proof.core k t := by
  have h' : Sys2Proof.core.step s = .next t := h
  simp only [Host.Core.run, h']

/-- The operation `i` is in progress and the host makes no move. -/
def InProgress (c : Config) (i : Instr) (s : State) : Prop :=
  s.seqState = .busy ∧ s.inbox = [] ∧ s.req.instr = i ∧ s.cfg = c

theorem step_inProgress {c : Config} {i : Instr} {s : State} (h : InProgress c i s) (ha : i.accepted = true) :
    step s = .next (advance i s) := by
  obtain ⟨h1, h2, h3, -⟩ := h
  simp [step, State.turn, h1, State.busyTurn, h2, tick, h3, ha]

/-- While Busy with an accepted request and no reset due, a step is the sequencer's (R20, R220). -/
theorem step_busy (s : State) (hs : s.seqState = .busy) (ha : s.req.instr.accepted = true)
    (hr : ∀ n rest, s.inbox = .reset n :: rest → s.seqPc < n) : step s = .next (advance s.req.instr s) := by
  unfold step State.turn
  rw [hs]
  simp only [State.busyTurn]
  cases hi : s.inbox with
  | nil => simp [tick, ha]
  | cons m rest =>
    cases m with
    | reset n => simp [Nat.not_le.2 (hr n rest hi), tick, ha]
    | _ => simp [tick, ha]

/-- Every instruction called while Idle answers a next state, and leaves the block Idle. -/
theorem exec_idle (i : Instr) (s : State) (h : s.seqState = .idle) : ∃ t, exec i s = .next t ∧ t.seqState = .idle := by
  have wire : ∀ c, ∃ t, sendCommand c s = .next t ∧ t.seqState = .idle := by
    intro c
    rw [sendCommand, call_idle _ _ _ h]
    exact ⟨_, rfl, rfl⟩
  cases i with
  | refused why p => exact ⟨s.refuse, by simp [exec, execRefused, h], h⟩
  | writeDatetime m p f =>
    rw [exec, execWriteDatetime, call_idle _ _ _ h]
    split <;> exact ⟨_, rfl, rfl⟩
  | toBcd n =>
    rw [exec, execToBcd, call_idle _ _ _ h]
    split <;> exact ⟨_, rfl, rfl⟩
  | fromBcd n =>
    rw [exec, execFromBcd, call_idle _ _ _ h]
    split <;> exact ⟨_, rfl, rfl⟩
  | readByte =>
    rw [exec, execReadByte, call_idle _ _ _ h]
    exact ⟨_, rfl, rfl⟩
  | writeByte v =>
    rw [exec, execWriteByte, call_idle _ _ _ h]
    exact ⟨_, rfl, rfl⟩
  | readStatus =>
    rw [exec, execReadStatus, call_idle _ _ _ h]
    exact ⟨_, rfl, rfl⟩
  | writeStatus v =>
    rw [exec, execWriteStatus, call_idle _ _ _ h]
    exact ⟨_, rfl, rfl⟩
  | resetChip =>
    rw [exec, execResetChip, call_idle _ _ _ h]
    exact ⟨_, rfl, rfl⟩
  | detect =>
    rw [exec, execDetect, call_idle _ _ _ h]
    exact ⟨_, rfl, rfl⟩
  | enableAlt =>
    rw [exec, execEnableAlt, call_idle _ _ _ h]
    exact ⟨_, rfl, rfl⟩
  | _ => exact wire _

theorem inProgress_run {c : Config} {i : Instr} {s : State} (p : Prim) (h : InProgress c i s) :
    InProgress c i (p.run s) := by
  obtain ⟨h1, h2, h3, h4⟩ := h
  have f := prim_run_frame p s
  exact ⟨f.1.trans h1, f.2.2.2.2.2.2.1.trans h2, by rw [f.2.1]; exact h3, f.2.2.2.2.2.2.2.trans h4⟩

/-- Every primitive but an exiting probe. -/
def straight (p : Prim) : Bool :=
  match p.access with
  | .probe _ true => false
  | _ => true

/-- A primitive that is no exiting probe advances `SEQ_PC` by exactly one (R24). -/
theorem straight_seqPc (p : Prim) (s : State) (h : straight p = true) : (p.run s).seqPc = s.seqPc + 1 := by
  obtain ⟨u, a⟩ := p
  have hu : (u.apply s).seqPc = s.seqPc := by cases u <;> rfl
  cases a with
  | probe q e =>
    cases e
    · simp [Prim.run, Access.run, exitOnMatch, State.probe, hu]
    · simp [straight] at h
  | port r v => cases r <;> simp [Prim.run, Access.run, hu]
  | _ =>
    simp [Prim.run, Access.run, State.sample, State.ieSave, State.readRef, State.pageWrite, State.rtcEnable, hu]

theorem runPrims_trace_length (ps : List Prim) (s : State) :
    (runPrims ps s).trace.length = s.trace.length + ps.length := by
  induction ps generalizing s with
  | nil => rfl
  | cons p ps ih =>
    obtain ⟨e, he⟩ := prim_run_trace p s
    rw [runPrims, ih, he]
    simp
    omega

/-- A straight part `ps` of a program is run by as many steps, and the rest `qs` is still to come. -/
theorem run_straight (c : Config) (i : Instr) (ha : i.accepted = true) (hf : operandFault i = none) (ps qs : List Prim)
    (s : State) (k : Nat) (h : InProgress c i s) (hd : (programOf c i).drop s.seqPc = ps ++ qs)
    (hp : ∀ p ∈ ps, straight p = true) :
    Host.Core.run Sys2Proof.core (ps.length + k) s = Host.Core.run Sys2Proof.core k (runPrims ps s) ∧
    InProgress c i (runPrims ps s) ∧ (programOf c i).drop (runPrims ps s).seqPc = qs := by
  induction ps generalizing s with
  | nil => exact ⟨by simp [runPrims], h, hd⟩
  | cons p ps ih =>
    have hpc := straight_seqPc p s (hp p (by simp))
    have hget : (programOf c i)[s.seqPc]? = some p := by
      have h0 := congrArg (·[0]?) hd
      simpa using h0
    have hst : step s = .next (p.run s) := by
      rw [step_inProgress h ha, advance, hf]
      simp [h.2.2.2, hget]
    have hdd : (programOf c i).drop (p.run s).seqPc = ps ++ qs := by
      rw [hpc, ← List.drop_drop, hd]
      rfl
    obtain ⟨r1, r2⟩ := ih (p.run s) (inProgress_run p h) hdd (fun q hq => hp q (by simp [hq]))
    refine ⟨?_, r2⟩
    rw [show (p :: ps).length + k = (ps.length + k) + 1 by simp; omega, run_succ hst]
    exact r1

/-- After its last event an operation returns in one step (R80; log 4). -/
theorem run_return (c : Config) (i : Instr) (ha : i.accepted = true) (hf : operandFault i = none) (s : State)
    (h : InProgress c i s) (hd : (programOf c i).drop s.seqPc = []) :
    Host.Core.run Sys2Proof.core 1 s = .next (s.complete (resultOf i s)) := by
  have hget : (programOf c i)[s.seqPc]? = none := by simpa using hd
  have hst : step s = .next (s.complete (resultOf i s)) := by
    rw [step_inProgress h ha, advance, hf]
    simp [h.2.2.2, hget]
  rw [run_succ hst]
  rfl

theorem straight_writeSlot (k bit n : Nat) : ∀ p ∈ writeSlot k bit n, straight p = true := by
  intro p hp
  simp [writeSlot] at hp
  rcases hp with ⟨_, _, rfl⟩ | rfl <;> rfl

theorem straight_readSlot (k n : Nat) : ∀ p ∈ readSlot k n, straight p = true := by
  intro p hp
  simp [readSlot] at hp
  rcases hp with ⟨_, _, rfl⟩ | rfl | rfl <;> rfl

theorem straight_withSetup (u : Setup) (ps : List Prim) (h : ∀ p ∈ ps, straight p = true) :
    ∀ p ∈ withSetup u ps, straight p = true := by
  cases ps with
  | nil => simp [withSetup]
  | cons q qs =>
    intro p hp
    simp only [withSetup, List.mem_cons] at hp
    rcases hp with rfl | hp
    · exact h q (by simp)
    · exact h p (by simp [hp])

theorem straight_flatMap (l : List Nat) (f : Nat → List Prim) (h : ∀ j, ∀ p ∈ f j, straight p = true) :
    ∀ p ∈ l.flatMap f, straight p = true := by
  intro p hp
  obtain ⟨j, -, hp⟩ := List.mem_flatMap.1 hp
  exact h j p hp

theorem straight_cmdOut (k : Nat) (c : Byte) : ∀ p ∈ cmdOut k c, straight p = true :=
  straight_withSetup _ _ (straight_flatMap _ _ fun _ => straight_writeSlot _ _ _)

theorem straight_byteOut (k : Nat) (v : Byte) : ∀ p ∈ byteOut k v, straight p = true :=
  straight_withSetup _ _ (straight_flatMap _ _ fun _ => straight_writeSlot _ _ _)

theorem straight_byteIn (k : Nat) : ∀ p ∈ byteIn k, straight p = true :=
  straight_withSetup _ _ (straight_flatMap _ _ fun _ => straight_readSlot _ _)

theorem straight_transaction (k : Nat) (c : Byte) (body : List Prim) (h : ∀ p ∈ body, straight p = true) :
    ∀ p ∈ transaction k c body, straight p = true := by
  intro p hp
  simp only [transaction, List.mem_append] at hp
  rcases hp with (hp | hp) | hp
  · revert p
    decide
  · exact straight_cmdOut k c p hp
  · exact h p hp

theorem straight_pageSelect (c : Config) (p : Nat) (kernel : Bool) : ∀ q ∈ pageSelect c p kernel, straight q = true := by
  intro q hq
  obtain ⟨w, -, rfl⟩ := List.mem_map.1 hq
  rfl

/-- Only DETECT's program has an early exit (R24). -/
theorem straight_program (c : Config) (i : Instr) (h : i ≠ .detect) : ∀ p ∈ programOf c i, straight p = true := by
  intro p hp
  cases i <;> simp only [programOf] at hp
  case sendCmd v => exact straight_cmdOut _ v p hp
  case readByte => exact straight_byteIn _ p hp
  case writeByte v => exact straight_byteOut _ v p hp
  case readStatus =>
    refine straight_transaction _ _ _ (fun q hq => ?_) p hp
    rcases List.mem_cons.1 hq with rfl | hq
    · rfl
    · exact straight_byteIn _ q hq
  case writeStatus v => exact straight_transaction _ _ _ (straight_byteOut _ v) p hp
  case writeDatetime m pm f =>
    refine straight_transaction _ _ _ (fun q hq => ?_) p hp
    obtain ⟨v, -, hq⟩ := List.mem_flatMap.1 hq
    exact straight_byteOut _ v q hq
  case resetChip =>
    refine straight_transaction _ _ _ (fun q hq => ?_) p hp
    obtain rfl := List.mem_singleton.1 hq
    rfl
  case enableAlt =>
    simp [enableAltProgram] at hp
    rcases hp with hp | rfl
    · exact straight_pageSelect _ _ _ p hp
    · rfl
  case detect => exact absurd rfl h
  all_goals simp at hp

/-- A straight operation, accepted and run event by event to its return (R34). -/
theorem run_straight_operation (s : State) (i : Instr) (r : Req) (hin : s.inbox = []) (ha : i.accepted = true)
    (hr : r.instr = i) (hd : i ≠ .detect) (hf : operandFault i = none) :
    Host.Core.run Sys2Proof.core ((programOf s.cfg i).length + 1) (s.accept r) =
      .next ((runPrims (programOf s.cfg i) (s.accept r)).complete
        (resultOf i (runPrims (programOf s.cfg i) (s.accept r)))) := by
  obtain ⟨r1, r2, r3⟩ := run_straight s.cfg i ha hf (programOf s.cfg i) [] (s.accept r) 1 ⟨rfl, hin, hr, rfl⟩ (by simp)
    (straight_program _ _ hd)
  rw [r1]
  exact run_return s.cfg i ha hf _ r2 r3

/-- An operation whose operands fault, accepted and run to its fault (R202, R204). -/
theorem run_faulting_operation (s : State) (i : Instr) (r : Req) (m : FaultMark) (hin : s.inbox = [])
    (ha : i.accepted = true) (hr : r.instr = i) (hf : operandFault i = some m) :
    Host.Core.run Sys2Proof.core 1 (s.accept r) = .next ((s.accept r).raiseFault m) := by
  have g : InProgress s.cfg i (s.accept r) := ⟨rfl, hin, hr, rfl⟩
  have hst : step (s.accept r) = .next ((s.accept r).raiseFault m) := by
    rw [step_inProgress g ha, advance, hf]
  rw [run_succ hst]
  rfl

/-- One page of DETECT that may exit (R172, R173): its select and probe, event by event, end at the epilogue on a match and at
the rest of the program otherwise. -/
theorem run_exiting_probe (c : Config) (p : Nat) (u : Setup) (qs : List Prim) (t : State) (h : InProgress c .detect t)
    (hd : (programOf c .detect).drop t.seqPc = withSetup u (probeProgram c p true) ++ qs) :
    (∀ k, Host.Core.run Sys2Proof.core ((probeProgram c p true).length + k) t =
      Host.Core.run Sys2Proof.core k (runPrims (withSetup u (probeProgram c p true)) t)) ∧
    InProgress c .detect (runPrims (withSetup u (probeProgram c p true)) t) ∧
    ((runPrims (withSetup u (probeProgram c p true)) t).matched = true →
      (runPrims (withSetup u (probeProgram c p true)) t).seqPc = detectExit c) ∧
    ((runPrims (withSetup u (probeProgram c p true)) t).matched = false →
      (programOf c .detect).drop (runPrims (withSetup u (probeProgram c p true)) t).seqPc = qs) := by
  obtain ⟨ps, x, hx, hps⟩ : ∃ ps x, withSetup u (probeProgram c p true) = ps ++ [{ setup := x, access := .probe p true }] ∧
      ∀ q ∈ ps, straight q = true := by
    unfold probeProgram
    cases hs : pageSelect c p false with
    | nil => exact ⟨[], u, rfl, by simp⟩
    | cons w ws => exact ⟨withSetup u (w :: ws), .none, rfl, straight_withSetup _ _ (hs ▸ straight_pageSelect c p false)⟩
  have hlen : (probeProgram c p true).length = ps.length + 1 := by
    have h2 : (withSetup u (probeProgram c p true)).length = (probeProgram c p true).length := by
      cases probeProgram c p true <;> rfl
    rw [← h2, hx]
    simp
  rw [hx] at hd ⊢
  rw [List.append_assoc] at hd
  have r1 := fun k => (run_straight c .detect rfl rfl ps _ t k h hd hps).1
  obtain ⟨-, r2, r3⟩ := run_straight c .detect rfl rfl ps _ t 0 h hd hps
  rw [runPrims_append, hlen]
  generalize runPrims ps t = v at r1 r2 r3
  simp only [runPrims]
  have hget : (programOf c .detect)[v.seqPc]? = some { setup := x, access := .probe p true } := by
    have h0 := congrArg (·[0]?) r3
    simpa using h0
  have hst : step v = .next (({ setup := x, access := .probe p true } : Prim).run v) := by
    rw [step_inProgress r2 rfl, advance]
    simp only [operandFault, r2.2.2.2, hget]
  have hxs : (x.apply v).cfg = c ∧ (x.apply v).seqPc = v.seqPc := by cases x <;> exact ⟨r2.2.2.2, rfl⟩
  obtain ⟨y, -, hy⟩ := probe_run p true (x.apply v)
  refine ⟨fun k => ?_, inProgress_run _ r2, fun hm => ?_, fun hm => ?_⟩
  · rw [Nat.add_assoc, r1, Nat.add_comm 1, run_succ hst]
  · simp only [Prim.run] at hm ⊢
    rw [hy] at hm ⊢
    simp only at hm
    simp [hm, hxs]
  · simp only [Prim.run] at hm ⊢
    rw [hy] at hm ⊢
    simp only at hm
    simp only [hm, Bool.and_false, Bool.false_eq_true, if_false, hxs]
    rw [← List.drop_drop, r3]
    rfl

/-- DETECT's epilogue and its return, in two steps (R175). -/
theorem run_detect_epilogue (c : Config) (t : State) (h : InProgress c .detect t) (ht : t.seqPc = detectExit c) :
    Host.Core.run Sys2Proof.core 2 t = .next (completeDetect (t.ieSet t.ieSaved)) := by
  have hd : (programOf c .detect).drop t.seqPc = [{ access := .ieRestore }] := by
    rw [ht]
    simp [programOf, detectProgram, detectExit]
  obtain ⟨r1, r2, r3⟩ := run_straight c .detect rfl rfl [{ access := .ieRestore }] [] t 1 h (by simpa using hd) (by decide)
  exact r1.trans (run_return c .detect rfl rfl _ r2 r3)

/-- The flash pages from index `i` on, the epilogue and the return, event by event. -/
theorem run_flash (c : Config) (pages : List Nat) (i : Nat) (t : State) (h : InProgress c .detect t)
    (hd : (programOf c .detect).drop t.seqPc = flashPrograms c i pages ++ [{ access := .ieRestore }]) :
    t.trace.length ≤ (probeFlash i pages t).trace.length ∧
    Host.Core.run Sys2Proof.core ((probeFlash i pages t).trace.length - t.trace.length + 2) t =
      .next (completeDetect ((probeFlash i pages t).ieSet (probeFlash i pages t).ieSaved)) := by
  induction pages generalizing i t with
  | nil =>
    refine ⟨le_refl _, ?_⟩
    simp only [probeFlash, Nat.sub_self, Nat.zero_add]
    refine run_detect_epilogue c t h ?_
    have h1 := congrArg List.length hd
    have h2 : (programOf c .detect).length = detectExit c + 1 := by simp [programOf, detectProgram, detectExit]
    simp [flashPrograms] at h1
    omega
  | cons p ps ih =>
    simp only [flashPrograms, flashProgram, List.append_assoc] at hd
    obtain ⟨s1, s2, s3, s4⟩ := run_exiting_probe c p (.pageIndex i) _ t h hd
    change ∀ k, _ = Host.Core.run Sys2Proof.core k (runPrims (flashProgram c i p) t) at s1
    change InProgress _ _ (runPrims (flashProgram c i p) t) at s2
    change (runPrims (flashProgram c i p) t).matched = true → (runPrims (flashProgram c i p) t).seqPc = _ at s3
    change (runPrims (flashProgram c i p) t).matched = false →
      (programOf c .detect).drop (runPrims (flashProgram c i p) t).seqPc = _ at s4
    have hl := runPrims_trace_length (flashProgram c i p) t
    have hlen : (flashProgram c i p).length = (probeProgram c p true).length := by
      unfold flashProgram
      cases probeProgram c p true <;> rfl
    unfold probeFlash
    simp only [h.2.2.2]
    generalize runPrims (flashProgram c i p) t = v at s1 s2 s3 s4 hl
    cases hvm : v.matched
    · obtain ⟨i1, i2⟩ := ih (i + 1) v s2 (s4 hvm)
      simp only [Bool.false_eq_true, if_false]
      refine ⟨by omega, ?_⟩
      rw [← i2, ← s1]
      congr 1
      omega
    · simp only [if_true]
      refine ⟨by omega, ?_⟩
      rw [← run_detect_epilogue c v s2 (s3 hvm), ← s1]
      congr 1
      omega

/-- DETECT, accepted and run event by event to its return (R34). -/
theorem run_detect_operation (s : State) (r : Req) (hin : s.inbox = []) (hr : r.instr = .detect) :
    Host.Core.run Sys2Proof.core ((runDetect (s.accept r)).trace.length - s.trace.length + 1) (s.accept r) =
      .next (completeDetect (runDetect (s.accept r))) := by
  have hsetup : withSetup .none (probeProgram s.cfg s.cfg.psramPage true) = probeProgram s.cfg s.cfg.psramPage true := by
    unfold probeProgram pageSelect
    cases s.cfg.pageSeq s.cfg.psramPage <;> rfl
  have hprog : (programOf s.cfg .detect).drop (s.accept r).seqPc =
      (detectPrefix ++ probeProgram s.cfg s.cfg.bootPage false) ++
        (withSetup .none (probeProgram s.cfg s.cfg.psramPage true) ++
          (flashPrograms s.cfg 0 s.cfg.flashPages ++ [{ access := .ieRestore }])) := by
    rw [hsetup]
    simp [programOf, detectProgram, detectBody]
  have hstraight : ∀ p ∈ detectPrefix ++ probeProgram s.cfg s.cfg.bootPage false, straight p = true := by
    intro p hp
    simp [detectPrefix, probeProgram, pageSelect] at hp
    rcases hp with rfl | rfl | rfl | ⟨_, _, rfl⟩ | rfl <;> rfl
  have a1 := fun k => (run_straight s.cfg .detect rfl rfl _ _ (s.accept r) k ⟨rfl, hin, hr, rfl⟩ hprog hstraight).1
  obtain ⟨-, a2, a3⟩ := run_straight s.cfg .detect rfl rfl _ _ (s.accept r) 0 ⟨rfl, hin, hr, rfl⟩ hprog hstraight
  have tl := runPrims_trace_length (detectPrefix ++ probeProgram s.cfg s.cfg.bootPage false) (s.accept r)
  have hrun : runDetect (s.accept r) =
      (let w := runPrims (probeProgram s.cfg s.cfg.psramPage true)
        (runPrims (detectPrefix ++ probeProgram s.cfg s.cfg.bootPage false) (s.accept r))
       let z := if w.matched then w else probeFlash 0 s.cfg.flashPages w
       z.ieSet z.ieSaved) := by
    unfold runDetect probeClasses
    simp only [runPrims_cfg, runPrims_append]
    rfl
  rw [hrun]
  generalize runPrims (detectPrefix ++ probeProgram s.cfg s.cfg.bootPage false) (s.accept r) = v at a1 a2 a3 tl
  obtain ⟨b1, b2, b3, b4⟩ := run_exiting_probe s.cfg s.cfg.psramPage .none _ v a2 a3
  rw [hsetup] at b1 b2 b3 b4
  have tl2 := runPrims_trace_length (probeProgram s.cfg s.cfg.psramPage true) v
  generalize runPrims (probeProgram s.cfg s.cfg.psramPage true) v = w at b1 b2 b3 b4 tl2
  simp only
  rw [show (s.accept r).trace = s.trace from rfl] at tl
  cases hwm : w.matched
  · obtain ⟨f1, f2⟩ := run_flash s.cfg s.cfg.flashPages 0 w b2 (b4 hwm)
    simp only [Bool.false_eq_true, if_false]
    rw [← f2, ← b1, ← a1]
    congr 1
    simp only [State.ieSet_trace, List.length_append, List.length_cons, List.length_nil] at tl ⊢
    omega
  · simp only [if_true]
    rw [← run_detect_epilogue s.cfg w b2 (b3 hwm), ← b1, ← a1]
    congr 1
    simp only [State.ieSet_trace, List.length_append, List.length_cons, List.length_nil] at tl ⊢
    omega

end Sys2Proof.Laws
end

