-- ==== Sys2Proof/Tests/Slice0.lean ====
section
/-!
SUPPORT. The model's own tests. Expected results come from the vectors V1 to V29 and S1 to S16 of spec/95_test_vectors.md, or are
worked by hand from the rule named; and for every statement with hypotheses a witness that meets them.
-/

namespace Sys2Proof.Tests

open Sys2Proof.Machine Sys2Proof.Safety

/-! ## Decoding (V1 to V4) -/

/-- V2. -/
theorem test_decode_sendCmd : decode (.hostWord 0x1063 []) = .sendCmd 0x63 := by decide

/-- V2. -/
theorem test_decode_readByte : decode (.hostWord 0x2000 []) = .readByte := by decide

/-- V2. -/
theorem test_decode_writeByte : decode (.hostWord 0x3081 []) = .writeByte 0x81 := by decide

/-- V2. -/
theorem test_decode_readStatus : decode (.hostWord 0x4000 []) = .readStatus := by decide

/-- V2. -/
theorem test_decode_writeStatus : decode (.hostWord 0x5040 []) = .writeStatus 0x40 := by decide

/-- V2 and V14: `MODE12` is bit 0, `PM` is bit 1, the fields in the order of R72. -/
theorem test_decode_writeDatetime :
    decode (.hostWord 0x6001 [24, 11, 12, 4, 23, 59, 0]) = .writeDatetime true false ⟨24, 11, 12, 4, 23, 59, 0⟩ ∧
    decode (.hostWord 0x6002 [24, 11, 12, 4, 23, 59, 0]) = .writeDatetime false true ⟨24, 11, 12, 4, 23, 59, 0⟩ := by decide

/-- V2. -/
theorem test_decode_resetChip : decode (.hostWord 0x7000 []) = .resetChip := by decide

/-- V2 and V4. -/
theorem test_decode_bcd : decode (.hostWord 0x803B []) = .toBcd 59 ∧ decode (.hostWord 0x9059 []) = .fromBcd 0x59 ∧
    decode (.hostWord 0x80FF []) = .toBcd 0xFF ∧ decode (.hostWord 0x90FF []) = .fromBcd 0xFF := by decide

/-- V2. -/
theorem test_decode_detector : decode (.hostWord 0xA000 []) = .detect ∧ decode (.hostWord 0xB000 []) = .enableAlt := by
  decide

/-- V1: the sixteen command bytes, bit by bit `{0110, x, r}`. -/
theorem test_decode_wire :
    decode (.wireByte 0b01100000) = .cmdMaskWrite0 ∧ decode (.wireByte 0b01100001) = .cmdMaskRead0 ∧
    decode (.wireByte 0b01100010) = .cmdMaskWrite1 ∧ decode (.wireByte 0b01100011) = .cmdMaskRead1 ∧
    decode (.wireByte 0b01100100) = .cmdMaskWrite2 ∧ decode (.wireByte 0b01100101) = .cmdMaskRead2 ∧
    decode (.wireByte 0b01100110) = .cmdMaskWrite3 ∧ decode (.wireByte 0b01100111) = .cmdMaskRead3 ∧
    decode (.wireByte 0b01101000) = .cmdMaskWrite4 ∧ decode (.wireByte 0b01101001) = .cmdMaskRead4 ∧
    decode (.wireByte 0b01101010) = .cmdMaskWrite5 ∧ decode (.wireByte 0b01101011) = .cmdMaskRead5 ∧
    decode (.wireByte 0b01101100) = .cmdMaskWrite6 ∧ decode (.wireByte 0b01101101) = .cmdMaskRead6 ∧
    decode (.wireByte 0b01101110) = .cmdMaskWrite7 ∧ decode (.wireByte 0b01101111) = .cmdMaskRead7 := by decide

/-- V1. -/
theorem test_command_bytes :
    [0, 1, 2, 3, 4, 5, 6, 7, 8].map maskRead =
      [some 0x61, some 0x63, some 0x65, some 0x67, some 0x69, some 0x6B, some 0x6D, some 0x6F, none] ∧
    [0, 1, 2, 3, 4, 5, 6, 7, 8].map maskWrite =
      [some 0x60, some 0x62, some 0x64, some 0x66, some 0x68, some 0x6A, some 0x6C, some 0x6E, none] := by decide

/-- V3: the refused words, none of them accepted. -/
theorem test_refused_words :
    ([0x0000, 0x00FF, 0xC000, 0xD012, 0xE000, 0xFFFF, 0x4100, 0x1F63, 0x4001, 0x2080, 0x7001, 0xA001, 0xB0FF] :
      List Word).all (fun w => (decode (.hostWord w [])).accepted == false) = true ∧
    ([0x6004, 0x60FF] : List Word).all
      (fun w => (decode (.hostWord w [0, 0, 0, 0, 0, 0, 0])).accepted == false) = true := by decide

/-- V4: well-formed words with edge operands. -/
theorem test_edge_words :
    ([0x1000, 0x10FF, 0x3000, 0x30FF, 0x5000, 0x50FF, 0x8000, 0x80FF, 0x9000, 0x90FF] : List Word).all
      (fun w => (decode (.hostWord w [])).accepted) = true := by decide

/-- R78: field bytes only with WRITE_DATETIME, and there exactly seven. -/
theorem test_field_count :
    decode (.hostWord 0x4000 [1]) = .refused .fieldCount (.hostWord 0x4000 [1]) ∧
    decode (.hostWord 0x6000 [1, 2, 3, 4, 5, 6]) = .refused .fieldCount (.hostWord 0x6000 [1, 2, 3, 4, 5, 6]) := by decide

/-! ## Well-formedness: one ill-formed term for each check -/

theorem test_wf_accepts_reasons :
    (Instr.refused .reservedOp (.hostWord 0x0000 [])).wf = true ∧
    (Instr.refused .nonzeroMbz (.hostWord 0x4100 [])).wf = true ∧
    (Instr.refused .unusedImmediate (.hostWord 0x4001 [])).wf = true ∧
    (Instr.refused .fieldCount (.hostWord 0x6000 [])).wf = true ∧
    (Instr.refused .wireLayout (.wireByte 0x70)).wf = true := by decide

theorem test_wf_refuses_accepted_encoding : (Instr.refused .reservedOp (.hostWord 0x4000 [])).wf = false := by decide

theorem test_wf_refuses_reservedOp : (Instr.refused .reservedOp (.hostWord 0x4100 [])).wf = false := by decide

theorem test_wf_refuses_nonzeroMbz : (Instr.refused .nonzeroMbz (.hostWord 0x0100 [])).wf = false := by decide

theorem test_wf_refuses_unusedImmediate : (Instr.refused .unusedImmediate (.hostWord 0x1001 [])).wf = false := by decide

theorem test_wf_refuses_fieldCount :
    (Instr.refused .fieldCount (.hostWord 0x6000 [1, 2, 3, 4, 5, 6, 7])).wf = false := by decide

theorem test_wf_refuses_wireLayout : (Instr.refused .wireLayout (.wireByte 0x6F)).wf = false := by decide

/-! ## A small machine: default knocks, two writes for each page (V24), two flash pages -/

def cfg : Config where
  kCmd := 3
  kWrite := 3
  kRead := 3
  gpioData := 196
  gpioDir := 198
  gpioCtrl := 200
  checksumAddr := 1000
  probeAddrs := [(2, 1002)]
  pageSeqs := [(1, [⟨300, 2, 0x11⟩, ⟨302, 2, 0x12⟩]), (2, [⟨300, 2, 0x21⟩, ⟨302, 2, 0x22⟩]),
    (3, [⟨300, 2, 0x31⟩, ⟨302, 2, 0x32⟩]), (4, [⟨300, 2, 0x41⟩, ⟨302, 2, 0x42⟩]),
    (5, [⟨300, 2, 0x51⟩, ⟨302, 2, 0x52⟩])]
  bootPage := 1
  psramPage := 2
  flashPages := [3, 4]
  kernelPage := 5
  rtcEn := ⟨400, 2, 0x0180⟩

theorem test_cfg_wf : cfg.wf = true := by decide

/-- Idle after reset, the oracle answering `answers`. -/
def start (answers : List Word) : State := { State.boot cfg with answers := answers }

/-- What a field of the next state is. -/
def look {α : Type} (o : Host.Outcome State Fault Refusal) (f : State → α) : Option α :=
  match o with
  | .next s => some (f s)
  | _ => none

/-- A word that answers P1 as given (R35). -/
def p1 (bits : List Bool) : List Word := bits.map fun b => if b then 2 else 0

/-- The values written at an address, and what is read, in order. -/
def values (addr : Nat) (t : State) : List Nat :=
  t.trace.filterMap fun e =>
    match e with
    | .wr a _ v => if a = addr then some v else none
    | _ => none

/-! ## Bus operations -/

/-- V6: `SEND_CMD 0x63`. -/
theorem test_sendCmd : look (exec (.sendCmd 0x63) (start [])) (fun t => (values 196 t, t.trace.length)) =
    some ([4, 4, 4, 5, 6, 6, 6, 7, 6, 6, 6, 7, 4, 4, 4, 5, 4, 4, 4, 5, 4, 4, 4, 5, 6, 6, 6, 7, 6, 6, 6, 7], 32) := by decide

/-- V6 at `K_CMD = 2`: `SEND_CMD 0x61`. -/
theorem test_sendCmd_two_knocks :
    look (exec (.sendCmd 0x61) { start [] with cfg := { cfg with kCmd := 2 } }) (values 196) =
      some [4, 4, 5, 6, 6, 7, 6, 6, 7, 4, 4, 5, 4, 4, 5, 4, 4, 5, 4, 4, 5, 6, 6, 7] := by decide

/-- V7: `WRITE_BYTE 0x40`. -/
theorem test_writeByte : look (exec (.writeByte 0x40) (start [])) (values 196) =
    some [4, 4, 4, 5, 4, 4, 4, 5, 4, 4, 4, 5, 4, 4, 4, 5, 4, 4, 4, 5, 4, 4, 4, 5, 6, 6, 6, 7, 4, 4, 4, 5] := by decide

/-- V8: only bit 1 of a sample counts, the first sample is bit 7. -/
theorem test_readByte :
    look (exec .readByte (start [0x0005, 0xFFFD, 0x0007, 0x0000, 0x0002, 0x0002, 0x0000, 0xFFFF]))
      (fun t => (t.result, t.trace.length)) = some (.byte 0x2D, 40) := by decide

/-- V8 and R26: `RXACC` ends as 0x104 for 0x82. -/
theorem test_readByte_accumulator :
    look (exec .readByte (start (p1 [true, false, false, false, false, false, true, false])))
      (fun t => (t.result, t.rxacc)) = some (.byte 0x82, 0x104) := by decide

/-! ## The wire command bytes, as SEND_CMD of each (V6's corner and R106, worked by hand) -/

theorem test_cmdMaskWrite0 : look (exec .cmdMaskWrite0 (start [])) (fun t => (t.txsr, (values 196 t).filter (· % 2 == 1))) =
    some (0x60, [5, 7, 7, 5, 5, 5, 5, 5]) := by decide

theorem test_cmdMaskRead0 : look (exec .cmdMaskRead0 (start [])) (fun t => (t.txsr, (values 196 t).filter (· % 2 == 1))) =
    some (0x61, [5, 7, 7, 5, 5, 5, 5, 7]) := by decide

theorem test_cmdMaskWrite1 : look (exec .cmdMaskWrite1 (start [])) (fun t => (t.txsr, (values 196 t).filter (· % 2 == 1))) =
    some (0x62, [5, 7, 7, 5, 5, 5, 7, 5]) := by decide

theorem test_cmdMaskRead1 : look (exec .cmdMaskRead1 (start [])) (fun t => (t.txsr, (values 196 t).filter (· % 2 == 1))) =
    some (0x63, [5, 7, 7, 5, 5, 5, 7, 7]) := by decide

theorem test_cmdMaskWrite2 : look (exec .cmdMaskWrite2 (start [])) (fun t => (t.txsr, (values 196 t).filter (· % 2 == 1))) =
    some (0x64, [5, 7, 7, 5, 5, 7, 5, 5]) := by decide

theorem test_cmdMaskRead2 : look (exec .cmdMaskRead2 (start [])) (fun t => (t.txsr, (values 196 t).filter (· % 2 == 1))) =
    some (0x65, [5, 7, 7, 5, 5, 7, 5, 7]) := by decide

theorem test_cmdMaskWrite3 : look (exec .cmdMaskWrite3 (start [])) (fun t => (t.txsr, (values 196 t).filter (· % 2 == 1))) =
    some (0x66, [5, 7, 7, 5, 5, 7, 7, 5]) := by decide

theorem test_cmdMaskRead3 : look (exec .cmdMaskRead3 (start [])) (fun t => (t.txsr, (values 196 t).filter (· % 2 == 1))) =
    some (0x67, [5, 7, 7, 5, 5, 7, 7, 7]) := by decide

theorem test_cmdMaskWrite4 : look (exec .cmdMaskWrite4 (start [])) (fun t => (t.txsr, (values 196 t).filter (· % 2 == 1))) =
    some (0x68, [5, 7, 7, 5, 7, 5, 5, 5]) := by decide

theorem test_cmdMaskRead4 : look (exec .cmdMaskRead4 (start [])) (fun t => (t.txsr, (values 196 t).filter (· % 2 == 1))) =
    some (0x69, [5, 7, 7, 5, 7, 5, 5, 7]) := by decide

theorem test_cmdMaskWrite5 : look (exec .cmdMaskWrite5 (start [])) (fun t => (t.txsr, (values 196 t).filter (· % 2 == 1))) =
    some (0x6A, [5, 7, 7, 5, 7, 5, 7, 5]) := by decide

theorem test_cmdMaskRead5 : look (exec .cmdMaskRead5 (start [])) (fun t => (t.txsr, (values 196 t).filter (· % 2 == 1))) =
    some (0x6B, [5, 7, 7, 5, 7, 5, 7, 7]) := by decide

theorem test_cmdMaskWrite6 : look (exec .cmdMaskWrite6 (start [])) (fun t => (t.txsr, (values 196 t).filter (· % 2 == 1))) =
    some (0x6C, [5, 7, 7, 5, 7, 7, 5, 5]) := by decide

theorem test_cmdMaskRead6 : look (exec .cmdMaskRead6 (start [])) (fun t => (t.txsr, (values 196 t).filter (· % 2 == 1))) =
    some (0x6D, [5, 7, 7, 5, 7, 7, 5, 7]) := by decide

theorem test_cmdMaskWrite7 : look (exec .cmdMaskWrite7 (start [])) (fun t => (t.txsr, (values 196 t).filter (· % 2 == 1))) =
    some (0x6E, [5, 7, 7, 5, 7, 7, 7, 5]) := by decide

theorem test_cmdMaskRead7 : look (exec .cmdMaskRead7 (start [])) (fun t => (t.txsr, (values 196 t).filter (· % 2 == 1))) =
    some (0x6F, [5, 7, 7, 5, 7, 7, 7, 7]) := by decide

/-! ## Chip-level transactions -/

/-- V9: `READ_STATUS` with P1 = 1,0,0,0,0,0,1,0. -/
theorem test_readStatus :
    look (exec .readStatus (start (p1 [true, false, false, false, false, false, true, false])))
      (fun t => (t.result, t.trace.length, (t.data, t.direction, t.control), t.txsr)) =
      some (.byte 0x82, 77, (5, 5, 1), 0x63) := by decide +kernel

/-- V10: noise reads as 0xFF. -/
theorem test_readStatus_noise :
    look (exec .readStatus (start (List.replicate 8 0xFFFF))) (fun t => t.result) = some (.byte 0xFF) := by decide

/-- V12: `WRITE_STATUS 0x40`. -/
theorem test_writeStatus :
    look (exec (.writeStatus 0x40) (start [])) (fun t => (t.trace.length, t.data, t.direction, t.control)) =
      some (68, 5, 7, 1) := by decide

/-- V13: the bytes on the line, least significant bit first. -/
theorem test_writeStatus_bits :
    look (exec (.writeStatus 0x82) (start [])) (fun t => ((values 196 t).drop 34).filter (· % 2 == 1)) =
      some [5, 7, 5, 5, 5, 5, 5, 7] := by decide

/-- V17 and V18: the hour byte. -/
theorem test_writeDatetime_bytes :
    dateBytes true true ⟨24, 11, 12, 4, 11, 5, 30⟩ = [0x24, 0x11, 0x12, 0x04, 0x91, 0x05, 0x30] ∧
    dateBytes true false ⟨24, 11, 12, 4, 11, 5, 30⟩ = [0x24, 0x11, 0x12, 0x04, 0x11, 0x05, 0x30] ∧
    dateBytes false true ⟨24, 11, 12, 4, 11, 5, 30⟩ = [0x24, 0x11, 0x12, 0x04, 0x11, 0x05, 0x30] ∧
    dateBytes true true ⟨99, 0, 0, 9, 85, 99, 99⟩ = [0x99, 0x00, 0x00, 0x09, 0x85, 0x99, 0x99] := by decide

/-- V16: the lowest offending index, and no event. -/
theorem test_writeDatetime_fault :
    look (exec (.writeDatetime false false ⟨24, 11, 12, 4, 23, 59, 100⟩) (start [])) (fun t => (t.fault, t.trace)) =
      some (some ⟨.bcdRange, 0x6, 100, some 6⟩, []) ∧
    look (exec (.writeDatetime false false ⟨200, 11, 12, 4, 23, 59, 100⟩) (start [])) (fun t => t.fault) =
      some (some ⟨.bcdRange, 0x6, 200, some 0⟩) := by decide

/-- V14: 260 events, the year byte 0x24 least significant bit first. -/
theorem test_writeDatetime :
    look (exec (.writeDatetime false false ⟨24, 11, 12, 4, 23, 59, 0⟩) (start []))
      (fun t => (t.trace.length, (((values 196 t).drop 34).take 32).filter (· % 2 == 1), t.fault)) =
      some (260, [5, 5, 7, 5, 5, 7, 5, 5], none) := by decide +kernel

/-- V19: `RESET_CHIP`. -/
theorem test_resetChip :
    look (exec .resetChip (start []))
      (fun t => (t.trace.length, (t.data, t.direction, t.control), t.txsr, (values 196 t).drop 33)) =
      some (37, (4, 7, 1), 0x61, [7, 4]) := by decide

/-! ## BCD -/

/-- V20 and V21. -/
theorem test_toBcd :
    ([0, 9, 10, 11, 59, 60, 90, 99, 100, 255] : List Byte).map toBcdFn =
      [some 0x00, some 0x09, some 0x10, some 0x11, some 0x59, some 0x60, some 0x90, some 0x99, none, none] := by decide

/-- V21. -/
theorem test_toBcd_fault :
    look (exec (.toBcd 100) (start [])) (fun t => (t.fault, t.delivered)) =
      some (some ⟨.bcdRange, 0x8, 100, none⟩, [⟨⟨0x8, 100, []⟩, .fault ⟨.bcdRange, 0x8, 100, none⟩⟩]) := by decide

/-- V22 and V23. -/
theorem test_fromBcd :
    ([0x00, 0x09, 0x10, 0x45, 0x91, 0x99, 0x0A, 0x1F, 0xA0, 0xA3, 0xFF] : List Byte).map fromBcdFn =
      [some 0, some 9, some 10, some 45, some 91, some 99, none, none, none, none, none] := by decide

/-- V23. -/
theorem test_fromBcd_fault :
    look (exec (.fromBcd 0xA3) (start [])) (fun t => (t.fault, t.trace)) = some (some ⟨.bcdDigit, 0x9, 0xA3, none⟩, []) := by
  decide

/-! ## Detector -/

/-- V24: the PSRAM page matches. -/
theorem test_detect_psram :
    look (exec .detect (start [0x3C, 0x3C, 0x3C])) (fun t => (t.result, t.trace, t.page)) =
      some (.flag true,
        [.ieRd true, .ieWr false, .rd 1000 1 0x3C, .wr 300 2 0x11, .wr 302 2 0x12, .rd 1000 1 0x3C, .wr 300 2 0x21,
          .wr 302 2 0x22, .rd 1002 1 0x3C, .ieWr true], 2) := by decide

/-- V26 at `N_FLASH = 2`: only the boot page matches, `4 + 4 * 3` events. -/
theorem test_detect_none :
    look (exec .detect (start [0x3C, 0x3C, 0, 0, 0])) (fun t => (t.result, t.trace.length, t.page, t.pageIdx)) =
      some (.flag false, 16, 4, 1) := by decide

/-- V29 at `L = 2`: five writes, the kernel select twice, then `RTC_EN`. -/
theorem test_enableAlt :
    look (exec .enableAlt (start [])) (fun t => (t.trace, t.page, t.pagingMode, t.passthrough)) =
      some ([.wr 300 2 0x51, .wr 302 2 0x52, .wr 300 2 0x51, .wr 302 2 0x52, .wr 400 2 0x0180], 5, .kernel, true) := by decide

/-- R52 with D25: the lower byte at the lower address. -/
theorem test_enableAlt_memory :
    look (exec .enableAlt (start []))
      (fun t => (Memory.read t.mem 400, Memory.read t.mem 401, Memory.read t.mem 402, Memory.wf t.mem)) =
      some (0x80, 0x01, 0, true) := by decide

/-! ## Refused encodings and steps -/

/-- V3. -/
theorem test_refused :
    look (exec (.refused .reservedOp (.hostWord 0 [])) (start [])) (fun t => (t.refusal, t.trace, t.delivered)) =
      some (some .refusedEncoding, [], []) := by decide

/-- R80 and R20: one step accepts, the next is the first event. -/
theorem test_accept_then_event :
    look (step { start [] with inbox := [.present (.hostWord 0x4000 [])] }) (fun t => (t.seqState, t.req, t.trace)) =
      some (.busy, ⟨0x4, 0, []⟩, []) ∧
    look (step { start [] with seqState := .busy, req := ⟨0x4, 0, []⟩ }) (fun t => (t.seqState, t.seqPc, t.trace)) =
      some (.busy, 1, [.wr 200 2 1]) := by decide

/-- R220: a reset inside an operation. -/
theorem test_reset_inside :
    look (step { start [] with seqState := .busy, req := ⟨0x4, 0, []⟩, seqPc := 2, inbox := [.reset 2] })
      (fun t => (t.seqState, t.trace, t.inbox)) = some (.idle, [], []) := by decide

/-- V25 at its last probe: flash page 1 matches and `SEQ_PC` is at the epilogue. -/
theorem test_detect_exit :
    look (step { start [0x3C] with seqState := .busy, req := ⟨0xA, 0, []⟩, seqPc := 8, refSum := 0x3C })
      (fun t => (t.matched, t.seqPc, t.trace)) = some (true, 15, [.rd 1002 1 0x3C]) := by decide

/-! ## Witnesses: for every statement with hypotheses, values that meet them -/

/-- The last primitive's place of a READ_STATUS in progress. -/
def busy (op : BitVec 4) (pc : Nat) : State := { start [] with seqState := .busy, req := ⟨op, 0, []⟩, seqPc := pc }

theorem witness_DecodeOfEncodeIsIdentity :
    (Instr.writeDatetime true true ⟨255, 0, 0, 0, 0, 0, 0⟩).wf = true ∧
    (Instr.refused .wireLayout (.wireByte 0x5F)).wf = true := by decide

theorem witness_AcceptedIffRequestWellFormed :
    (decode (.hostWord 0x10FF [])).accepted = true ∧ (decode (.hostWord 0xB000 [])).accepted = true ∧
    (decode (.hostWord 0x6003 [0, 0, 0, 0, 0, 0, 0])).accepted = true ∧ (decode (.hostWord 0x0FFF [])).accepted = false ∧
    (decode (.hostWord 0xC000 [])).accepted = false := by decide

theorem witness_CommandByteFormulas : 7 < 8 ∧ maskRead 7 = some 0x6F ∧ maskWrite 8 = none := by decide

theorem witness_StepRunsTheDecodedInstruction :
    ({ start [] with inbox := [.call (.hostWord 0x2000 [])] } : State).seqState = .idle ∧
    ({ start [] with inbox := [.call (.hostWord 0x2000 [])] } : State).inbox = .call (.hostWord 0x2000 []) :: [] :=
  ⟨rfl, rfl⟩

theorem witness_PlacedWordRunsNext :
    decodeTableWord 16 0xFFFF = some (.refused .reservedOp (.hostWord 0xFFFF [])) ∧
    decodeTableWord 8 0x6F = some .cmdMaskRead7 ∧
    decodeTableWord 16 0x6003 = some (.writeDatetime true true ⟨0, 0, 0, 0, 0, 0, 0⟩) := by decide

/-- Each clause: a request word, the first and the last wire command byte, and one of each kind that is refused. -/
theorem witness_PresentedRequestIsAccepted :
    ({ start [] with inbox := [.present (.hostWord 0x80FF []), .setIe false] } : State).seqState = .idle ∧
    ({ start [] with inbox := [.present (.hostWord 0x80FF []), .setIe false] } : State).inbox =
      .present (.hostWord 0x80FF []) :: [.setIe false] ∧
    (decode (.hostWord 0x80FF [])).accepted = true ∧ (decode (.hostWord 0x8100 [])).accepted = false ∧
    (decode (.wireByte 0x60)).accepted = true ∧ (decode (.wireByte 0x6F)).accepted = true ∧
    (decode (.wireByte 0x5F)).accepted = false ∧ (decode (.wireByte 0x70)).accepted = false :=
  ⟨rfl, rfl, by decide, by decide, by decide, by decide, by decide, by decide⟩

theorem witness_RefusedWordOnlySetsTheMark :
    (start []).seqState = .idle ∧ (decode (.hostWord 0x1F63 [])).accepted = false ∧
    (0x0FFF : Word).toNat / 4096 = 0 ∧ 12 ≤ (0xC000 : Word).toNat / 4096 := by decide

/-- The first and the last event of a READ_STATUS, and a reset still to come. -/
theorem witness_BusyStepIsOneEvent :
    (busy 0x4 0).seqState = .busy ∧ (busy 0x4 0).req.instr.accepted = true ∧ operandFault (busy 0x4 0).req.instr = none ∧
    (busy 0x4 0).inbox = [] ∧ (busy 0x4 76).seqPc < (programOf cfg (busy 0x4 76).req.instr).length ∧
    ({ busy 0x4 1 with inbox := [.reset 2] } : State).seqPc < 2 := by decide

theorem witness_BusyStepAfterLastEventReturns :
    (busy 0x4 77).seqState = .busy ∧ (busy 0x4 77).req.instr.accepted = true ∧
    operandFault (busy 0x4 77).req.instr = none ∧ (busy 0x4 77).inbox = [] ∧
    (programOf cfg (busy 0x4 77).req.instr).length ≤ (busy 0x4 77).seqPc := by decide

theorem witness_CallEqualsEventByEventRun :
    (start []).seqState = .idle ∧ (decode (.wireByte 0x60)).accepted = true ∧ (decode (.hostWord 0xA000 [])).accepted = true := by
  decide

theorem witness_ResetAbandonsTheOperation :
    ({ start [] with inbox := [.reset 9] } : State).seqState = .idle ∧
    ({ busy 0x4 9 with inbox := [.reset 9] } : State).inbox = .reset 9 :: [] ∧
    9 ≤ ({ busy 0x4 9 with inbox := [.reset 9] } : State).seqPc := by decide

theorem witness_BusyBlockTakesNoRequest :
    ({ busy 0x4 0 with inbox := [.call (.hostWord 0x2000 [])] } : State).seqState = .busy ∧
    look (step { busy 0x4 0 with inbox := [.call (.hostWord 0x2000 [])] }) (fun t => t.inbox) =
      some [.call (.hostWord 0x2000 [])] := by decide

theorem witness_IdleBlockWaits : (start [1]).seqState = .idle ∧ (start [1]).inbox = [] := ⟨rfl, rfl⟩

theorem witness_SendCmdShiftsOutMsbFirst : (start []).seqState = .idle := rfl

theorem witness_WriteByteShiftsOutLsbFirst : (start []).seqState = .idle := rfl

theorem witness_ReadByteShiftsInMsbFirst : (start (p1 [true])).seqState = .idle := rfl

theorem witness_SamplesAreTheNextAnswers :
    (start (List.replicate 8 2)).seqState = .idle ∧ 8 ≤ (start (List.replicate 8 2)).answers.length := by decide

theorem witness_WireCommandBytesAreShiftedOut : (start []).seqState = .idle := rfl

theorem witness_ReadStatusTransaction : (start []).seqState = .idle := rfl

theorem witness_WriteStatusTransaction : (start []).seqState = .idle := rfl

/-- The fields at both ends of 0..99, offending fields at both ends of 0..6, and the function the statement names. -/
theorem witness_WriteDatetimeTransaction :
    (start []).seqState = .idle ∧ (∀ v ∈ ([99, 0, 0, 0, 99, 0, 99] : List Byte), v.toNat ≤ 99) ∧
    ([100, 0, 0, 0, 0, 0, 255] : List Byte)[0]? = some 100 ∧ 99 < (100 : Byte).toNat ∧
    ([99, 99, 99, 99, 99, 99, 255] : List Byte)[6]? = some 255 ∧
    (∀ k < 6, ∀ u, ([99, 99, 99, 99, 99, 99, 255] : List Byte)[k]? = some u → u.toNat ≤ 99) ∧
    ∃ bcd : Byte → Byte, ∀ n, bcd n = BitVec.ofNat 8 (16 * (n.toNat / 10) + n.toNat % 10) := by
  refine ⟨rfl, by decide, rfl, by decide, rfl, fun k hk u hu => ?_, _, fun _ => rfl⟩
  have h : k = 0 ∨ k = 1 ∨ k = 2 ∨ k = 3 ∨ k = 4 ∨ k = 5 := by omega
  rcases h with rfl | rfl | rfl | rfl | rfl | rfl <;> · cases hu; decide

theorem witness_ResetChipTransaction : (start []).seqState = .idle := rfl

theorem witness_TransactionEventCounts :
    (start []).seqState = .idle ∧ ∀ v ∈ DateTimeFields.toList ⟨99, 0, 0, 0, 0, 0, 0⟩, v.toNat ≤ 99 := ⟨rfl, by decide⟩

theorem witness_DirectionAfterEachOperation :
    (start []).seqState = .idle ∧ ∀ v ∈ DateTimeFields.toList ⟨0, 0, 0, 0, 0, 0, 99⟩, v.toNat ≤ 99 := ⟨rfl, by decide⟩

theorem witness_ToBcdEncodesOrFaults :
    (start []).seqState = .idle ∧ (99 : Byte).toNat ≤ 99 ∧ 99 < (100 : Byte).toNat := by decide

theorem witness_FromBcdDecodesOrFaults :
    (start []).seqState = .idle ∧ (0x99 : Byte).toNat / 16 ≤ 9 ∧ (0x99 : Byte).toNat % 16 ≤ 9 ∧
    9 < (0xA0 : Byte).toNat / 16 ∧ 9 < (0x0A : Byte).toNat % 16 := by decide

theorem witness_BcdRoundTrips :
    (99 : Byte).toNat ≤ 99 ∧ (0x99 : Byte).toNat / 16 ≤ 9 ∧ (0x99 : Byte).toNat % 16 ≤ 9 ∧ toBcdFn 99 = some 0x99 := by decide

theorem witness_DetectProbesUntilFirstMatch : (start [0x3C, 0x3C, 0x3C]).seqState = .idle := rfl

theorem witness_DetectResultLaw : (start [0x3C, 0x3C, 0, 0, 0x3C]).seqState = .idle := rfl

theorem witness_DetectRestoresInterruptEnable : ({ start [] with ie := false } : State).seqState = .idle := rfl

theorem witness_DetectEventCounts :
    (start []).seqState = .idle ∧ ∀ p ∈ probedPages cfg, (cfg.pageSeq p).length ≤ 2 := by decide

theorem witness_DetectBothResultsPossible : (start []).seqState = .idle := rfl

theorem witness_DetectLeavesLastSelectedPage :
    (start []).seqState = .idle ∧ ∀ p ∈ probedPages cfg, cfg.pageSeq p ≠ [] := by decide

theorem witness_EnableAltSelectsKernelPageTwice : (start []).seqState = .idle := rfl

theorem witness_EnableAltCommandsKernelMode : (start []).seqState = .idle := rfl

/-- A bare operation, a transaction and one that reads. -/
theorem witness_SerialOperationsFrame :
    (∃ t, exec (.sendCmd 0) (start []) = .next t) ∧ (∃ t, exec .resetChip (start []) = .next t) ∧
    ∃ t, exec .readByte (start []) = .next t := ⟨⟨_, rfl⟩, ⟨_, rfl⟩, ⟨_, rfl⟩⟩

/-- Each operation goes on, and there are addresses outside the stored bytes. -/
theorem witness_DetectorOperationsFrame :
    (∃ t, exec .detect (start []) = .next t) ∧ (∃ t, exec .enableAlt (start []) = .next t) ∧
    (∀ p ∈ probedPages cfg, ∀ w ∈ cfg.pageSeq p, w.addr + w.width ≤ 304) ∧
    (∀ w ∈ cfg.pageSeq cfg.kernelPage, w.addr + w.width ≤ 304) ∧ cfg.rtcEn.addr + cfg.rtcEn.width ≤ 402 := by
  refine ⟨⟨_, rfl⟩, ⟨_, rfl⟩, ?_⟩
  decide

theorem witness_EnableAltStoresRtcEnableValue :
    Memory.wf (start []).mem = true ∧ (∃ t, exec .enableAlt (start []) = .next t) ∧ 1 < cfg.rtcEn.width :=
  ⟨rfl, ⟨_, rfl⟩, by decide⟩

theorem witness_FaultMarkIsSticky :
    ∃ t, ({ start [] with fault := some ⟨.bcdDigit, 0x9, 0xFF, none⟩ } : State).fault = some ⟨.bcdDigit, 0x9, 0xFF, none⟩ ∧
      step { start [] with fault := some ⟨.bcdDigit, 0x9, 0xFF, none⟩ } = .next t := ⟨_, rfl, rfl⟩

theorem witness_RefusalMarkIsKept :
    ∃ t, ({ start [] with refusal := some .refusedEncoding } : State).refusal = some .refusedEncoding ∧
      step { start [] with refusal := some .refusedEncoding } = .next t := ⟨_, rfl, rfl⟩

theorem witness_OnlyThreeOperationsFault : ∃ t, exec .detect (start []) = .next t := ⟨_, rfl⟩

theorem witness_FaultingOperationHasNoEvent :
    (∃ t, exec (.toBcd 100) (start []) = .next t ∧
      t.delivered = (start []).delivered ++ [⟨⟨0x8, 100, []⟩, .fault ⟨.bcdRange, 0x8, 100, none⟩⟩]) ∧
    (start [1]).seqState = .idle := ⟨⟨_, rfl, rfl⟩, rfl⟩

theorem witness_StepKeepsMemoryCanonical :
    Memory.wf ({ start [] with mem := [(300, 0x51)], inbox := [.call (.hostWord 0xB000 [])] } : State).mem = true ∧
    ∃ t, step { start [] with mem := [(300, 0x51)], inbox := [.call (.hostWord 0xB000 [])] } = .next t :=
  ⟨rfl, _, rfl⟩

theorem witness_StepKeepsPortWritesLegal :
    PortsLegal { start [] with trace := [.wr 196 2 7, .wr 200 2 1], inbox := [.call (.hostWord 0x7000 [])] } ∧
    ∃ t, step { start [] with trace := [.wr 196 2 7, .wr 200 2 1], inbox := [.call (.hostWord 0x7000 [])] } = .next t := by
  refine ⟨⟨test_cfg_wf, ?_⟩, _, rfl⟩
  intro e he
  rcases List.mem_cons.1 he with rfl | he
  · simp [portEventLegal, start, State.boot, cfg]
  · rw [List.mem_singleton.1 he]
    simp [portEventLegal, start, State.boot, cfg]

theorem witness_StepKeepsRegistersInRange :
    RegistersInRange { start [] with rxacc := 0x104, bitcnt := 8, kcnt := 5, pageIdx := 512 } ∧
    ∃ t, step { start [] with rxacc := 0x104, bitcnt := 8, kcnt := 5, pageIdx := 512 } = .next t :=
  ⟨⟨test_cfg_wf, by decide, le_refl _, le_refl _, le_refl _⟩, _, rfl⟩

/-- At both ends of the bracket. -/
theorem witness_StepKeepsInterruptBracket :
    BracketHolds { busy 0xA 2 with ie := false } ∧ BracketHolds { busy 0xA 15 with ie := false } ∧
    detectExit cfg = 15 ∧ (busy 0xA 2).req.instr = .detect ∧ ∃ t, step { busy 0xA 2 with ie := false } = .next t :=
  ⟨fun _ _ _ _ => rfl, fun _ _ _ _ => rfl, by decide, by decide, _, rfl⟩

theorem witness_StepOnlyAppendsToTrace : ∃ t, step (busy 0x7 3) = .next t := ⟨_, rfl⟩

theorem witness_StepKeepsConfiguration : ∃ t, step (busy 0xA 3) = .next t := ⟨_, rfl⟩

theorem witness_StepAlwaysGoesOn :
    ((busy 0xB 1).seqState = .busy → (busy 0xB 1).req.instr.accepted = true) ∧ (busy 0xB 1).seqState = .busy := by decide

end Sys2Proof.Tests
end

section
/-!
The configuration of `State.reset` is well formed (R8, R9; log 6). Each OPEN value reaches the configuration through a
guard: the port triple and `RTC_EN` through an `if` with a legal fallback, the page sequences through a filter. So
nothing has to be known of the opaque constants.
-/

namespace Sys2Proof.Proofs.Scope

/-- An OPEN triple that the guard rejects gives way to 0, 2, 4, which is distinct and aligned. -/
theorem portsOk_resetPorts :
    Config.portsOk Config.resetPorts.1 Config.resetPorts.2.1 Config.resetPorts.2.2 = true := by
  unfold Config.resetPorts
  split
  case isTrue h => exact h
  case isFalse => decide

/-- One byte of 0 just past the sum of three addresses meets none of them. -/
theorem writeOk_pastSum (d r k : Nat) : Config.writeOk d r k ⟨d + r + k + 1, 1, 0⟩ = true := by
  have hd : d + r + k + 1 ≠ d := by omega
  have hr : d + r + k + 1 ≠ r := by omega
  have hk : d + r + k + 1 ≠ k := by omega
  simp [Config.writeOk, Nat.mod_one, hd, hr, hk]

theorem writeOk_resetRtcEn (ports : Nat × Nat × Nat) :
    Config.writeOk ports.1 ports.2.1 ports.2.2 (Config.resetRtcEn ports) = true := by
  unfold Config.resetRtcEn
  split
  case isTrue h => exact h
  case isFalse => exact writeOk_pastSum ..

theorem admitted_all_writeOk (ports : Nat × Nat × Nat) (ws : List BusWrite) :
    (Config.admitted ports ws).all (Config.writeOk ports.1 ports.2.1 ports.2.2) = true :=
  List.all_eq_true.2 fun _ hw => (List.mem_filter.1 hw).2

theorem atReset_pageSeqs_all_writeOk :
    Config.atReset.pageSeqs.all (fun e => e.2.all
      (Config.writeOk Config.resetPorts.1 Config.resetPorts.2.1 Config.resetPorts.2.2)) = true := by
  refine List.all_eq_true.2 fun e he => ?_
  obtain ⟨o, -, rfl⟩ := List.mem_map.1 he
  exact admitted_all_writeOk ..

theorem atReset_flashPages_length : Config.atReset.flashPages.length = 512 := by
  simp [Config.atReset]

/-- R9 clause by clause. -/
theorem wf_iff (c : Config) :
    c.wf = true ↔
      Config.knocksOk c.kCmd = true ∧ Config.knocksOk c.kWrite = true ∧ Config.knocksOk c.kRead = true ∧
      c.flashPages.length ≤ 512 ∧ Config.portsOk c.gpioData c.gpioDir c.gpioCtrl = true ∧
      c.pageSeqs.all (fun e => e.2.all (Config.writeOk c.gpioData c.gpioDir c.gpioCtrl)) = true ∧
      Config.writeOk c.gpioData c.gpioDir c.gpioCtrl c.rtcEn = true := by
  simp only [Config.wf, Bool.and_eq_true, decide_eq_true_eq, and_assoc]

/-- Settles O57: the defaults satisfy R9, and every OPEN value passes its guard. -/
theorem resetConfigurationWellFormed : Obligations.ResetConfigurationWellFormed := by
  have hknocks : Config.knocksOk 3 = true := by decide
  exact (wf_iff Config.atReset).2 ⟨hknocks, hknocks, hknocks, atReset_flashPages_length.le, portsOk_resetPorts,
    atReset_pageSeqs_all_writeOk, writeOk_resetRtcEn Config.resetPorts⟩

end Sys2Proof.Proofs.Scope
end

section
/-!
The state and its steps (10_state.md): what every step keeps, that a step of a Busy block is one event, that the machine
never stops, and that the two views of R34 agree. The invariants go through `Laws.step_keeps`, so each one says only what
the shared operations and one allowed primitive do to it. The two views meet in `runOperation`, the body every accepted
instruction calls, once `encode_decode` has named the request that an accepted encoding latches.
-/

namespace Sys2Proof.Proofs.StateRules

open Sys2Proof.Machine Sys2Proof.Safety Sys2Proof.Laws

/-! ## Encodings and the requests they latch -/

theorem toList_of_ofList {fs : List Byte} {f : DateTimeFields} (h : DateTimeFields.ofList fs = some f) :
    f.toList = fs := by
  unfold DateTimeFields.ofList at h
  split at h
  · cases h
    rfl
  · cases h

theorem dateTimeImm_of_bits (imm : Byte) :
    imm.extractLsb' 2 6 = 0 → dateTimeImm (imm.getLsbD 0) (imm.getLsbD 1) = imm := by
  revert imm
  decide

theorem encode_decodeBare {p : Presented} {fs : List Byte} {i : Instr} (h : fs = [] → encode i = p) :
    encode (decodeBare p fs i) = p := by
  unfold decodeBare
  split
  · exact h ‹_›
  · rfl

theorem encode_decodeNullary {p : Presented} {imm : Byte} {fs : List Byte} {i : Instr}
    (h : imm = 0 → fs = [] → encode i = p) : encode (decodeNullary p imm fs i) = p := by
  unfold decodeNullary
  split
  · exact encode_decodeBare (h ‹_›)
  · rfl

theorem encode_decodeDatetime {p : Presented} {imm : Byte} {fs : List Byte}
    (h : p = .hostWord (requestWord 0x6 imm) fs) : encode (decodeDatetime p imm fs) = p := by
  unfold decodeDatetime
  split
  · split
    · rw [encode, dateTimeImm_of_bits imm ‹_›, toList_of_ofList ‹_›, h]
    · rfl
  · rfl

/-- The map of R73 is read back by the encoder wherever the word is the one of its operation code and immediate. -/
theorem encode_decodeOp (w : Word) (imm : Byte) (fs : List Byte) (op : Nat)
    (h : 1 ≤ op → op ≤ 11 → w = requestWord (BitVec.ofNat 4 op) imm) :
    encode (decodeOp (.hostWord w fs) imm fs op) = .hostWord w fs := by
  unfold decodeOp
  split
  case h_1 | h_3 | h_5 | h_8 | h_9 =>
    refine encode_decodeBare fun hfs => ?_
    rw [h (by decide) (by decide), hfs]
    rfl
  case h_2 | h_4 | h_7 | h_10 | h_11 =>
    refine encode_decodeNullary fun himm hfs => ?_
    rw [h (by decide) (by decide), himm, hfs]
    rfl
  case h_6 =>
    refine encode_decodeDatetime ?_
    rw [h (by decide) (by decide)]
    rfl
  case h_12 => rfl

theorem encode_decodeWire (c : Byte) : encode (decodeWire c) = .wireByte c := by
  revert c
  decide

/-- No two encodings decode alike: the encoding can be read back from the instruction (R81). -/
theorem encode_decode (p : Presented) : encode (decode p) = p := by
  cases p with
  | wireByte c => exact encode_decodeWire c
  | hostWord w fs =>
    rw [decode]
    split
    case isTrue => rfl
    case isFalse hmbz =>
      refine encode_decodeOp w _ fs _ fun h1 h11 => ?_
      rw [BitVec.ofNat_toNat, BitVec.setWidth_eq, requestWord_fields w (by tauto)]

/-- An accepted encoding latches a request that names its operation, and that operation is accepted (R23, R80). -/
theorem latch (i : Instr) : Latch.Statement i := by
  cases i with
  | sendCmd c => exact Latch.sendCmd c
  | readByte => exact Latch.readByte
  | writeByte v => exact Latch.writeByte v
  | readStatus => exact Latch.readStatus
  | writeStatus v => exact Latch.writeStatus v
  | writeDatetime mode12 pm f => exact Latch.writeDatetime mode12 pm f
  | resetChip => exact Latch.resetChip
  | toBcd n => exact Latch.toBcd n
  | fromBcd b => exact Latch.fromBcd b
  | detect => exact Latch.detect
  | enableAlt => exact Latch.enableAlt
  | cmdMaskWrite0 => exact Latch.cmdMaskWrite0
  | cmdMaskRead0 => exact Latch.cmdMaskRead0
  | cmdMaskWrite1 => exact Latch.cmdMaskWrite1
  | cmdMaskRead1 => exact Latch.cmdMaskRead1
  | cmdMaskWrite2 => exact Latch.cmdMaskWrite2
  | cmdMaskRead2 => exact Latch.cmdMaskRead2
  | cmdMaskWrite3 => exact Latch.cmdMaskWrite3
  | cmdMaskRead3 => exact Latch.cmdMaskRead3
  | cmdMaskWrite4 => exact Latch.cmdMaskWrite4
  | cmdMaskRead4 => exact Latch.cmdMaskRead4
  | cmdMaskWrite5 => exact Latch.cmdMaskWrite5
  | cmdMaskRead5 => exact Latch.cmdMaskRead5
  | cmdMaskWrite6 => exact Latch.cmdMaskWrite6
  | cmdMaskRead6 => exact Latch.cmdMaskRead6
  | cmdMaskWrite7 => exact Latch.cmdMaskWrite7
  | cmdMaskRead7 => exact Latch.cmdMaskRead7
  | refused why p => exact Latch.refused why p

/-- What `REQ` names after acceptance is the operation presented, and one the block accepts (R23, R80). -/
theorem request_instr_of_accepted {p : Presented} (h : (decode p).accepted = true) :
    p.request.instr = (decode p).operation ∧ (decode p).operation.accepted = true := by
  have hlatch := latch (decode p) h
  rwa [encode_decode] at hlatch

/-! ## The body of an accepted operation: the two views of R34 -/

/-- What an accepted operation does to the state that accepted it, its fault or its whole pin program and its return. -/
def runOperation (i : Instr) (a : State) : State :=
  match operandFault i with
  | some m => a.raiseFault m
  | none =>
    if i = .detect then completeDetect (runDetect a)
    else (runPrims (programOf a.cfg i) a).complete (resultOf i (runPrims (programOf a.cfg i) a))

theorem runOperation_of_fault {i : Instr} {m : FaultMark} (h : operandFault i = some m) (a : State) :
    runOperation i a = a.raiseFault m := by
  simp only [runOperation, h]

theorem runOperation_detect (a : State) : runOperation .detect a = completeDetect (runDetect a) := rfl

theorem runOperation_of_straight {i : Instr} (hf : operandFault i = none) (hd : i ≠ .detect) (a : State) :
    runOperation i a = (runPrims (programOf a.cfg i) a).complete (resultOf i (runPrims (programOf a.cfg i) a)) := by
  simp only [runOperation, hf, if_neg hd]

theorem request_of_requestWord (op : BitVec 4) (imm : Byte) (fs : List Byte) :
    (Presented.hostWord (requestWord op imm) fs).request = ⟨op, imm, fs⟩ := by
  rw [Presented.request, opField_requestWord, immField_requestWord]

/-- Every accepted instruction is the call of its latched request with its operation's body (R34, R80). -/
theorem exec_eq_call (i : Instr) (s : State) (h : i.accepted = true) :
    exec i s = s.call (encode i).request (runOperation i.operation) := by
  cases i with
  | refused why p => cases h
  | sendCmd _ | readByte | writeByte _ | readStatus | writeStatus _ | writeDatetime _ _ _ | resetChip | toBcd _
  | fromBcd _ | detect | enableAlt =>
    rw [encode, request_of_requestWord]
    rfl
  | _ => rfl

theorem exec_decode {p : Presented} (h : (decode p).accepted = true) (s : State) :
    exec (decode p) s = s.call p.request (runOperation (decode p).operation) := by
  rw [exec_eq_call _ _ h, encode_decode]

/-! ## The port registers (R36) -/

@[simp] theorem setup_apply_cfg (u : Setup) (s : State) : (u.apply s).cfg = s.cfg := by cases u <;> rfl

@[simp] theorem setup_apply_trace (u : Setup) (s : State) : (u.apply s).trace = s.trace := by cases u <;> rfl

/-- The values R36 lists for each port register. -/
def portValueLegal : Port → Nat → Prop
  | .data, v => v = 1 ∨ v = 4 ∨ v = 5 ∨ v = 6 ∨ v = 7
  | .direction, v => v = 7 ∨ v = 5
  | .control, v => v = 1

/-- With distinct port addresses a port write is legal for its own register and unrelated to the two others. -/
theorem portEventLegal_portWrite {c : Config} (hp : Config.portsOk c.gpioData c.gpioDir c.gpioCtrl = true) (r : Port)
    {v : Nat} (hv : portValueLegal r v) : portEventLegal c (.wr (portAddr c r) 2 v) := by
  simp only [Config.portsOk, Bool.and_eq_true, bne_iff_ne] at hp
  obtain ⟨⟨⟨⟨⟨hdr, hdk⟩, hrk⟩, -⟩, -⟩, -⟩ := hp
  cases r
  · exact ⟨fun _ => ⟨rfl, hv⟩, fun h => absurd h hdr, fun h => absurd h hdk⟩
  · exact ⟨fun h => absurd h.symm hdr, fun _ => ⟨rfl, hv⟩, fun h => absurd h hrk⟩
  · exact ⟨fun h => absurd h.symm hdk, fun h => absurd h.symm hrk, fun _ => ⟨rfl, hv⟩⟩

/-- A configured write is at no port register's address (R170; log 24). -/
theorem portEventLegal_configured {c : Config} {w : BusWrite}
    (hw : Config.writeOk c.gpioData c.gpioDir c.gpioCtrl w = true) : portEventLegal c (.wr w.addr w.width w.value) := by
  simp only [Config.writeOk, Bool.and_eq_true, bne_iff_ne] at hw
  obtain ⟨⟨⟨-, hd⟩, hr⟩, hk⟩ := hw
  exact ⟨fun h => absurd h hd, fun h => absurd h hr, fun h => absurd h hk⟩

theorem knockValue_legal (b : Bool) : portValueLegal .data (knockValue b).toNat := by
  rw [knockValue_toNat]
  cases b <;> simp [portValueLegal]

theorem commitValue_legal (b : Bool) : portValueLegal .data (commitValue b).toNat := by
  rw [commitValue_toNat]
  cases b <;> simp [portValueLegal]

/-- A port write of a pin program carries a legal value. -/
theorem allowedPrim_port {c : Config} {u : Setup} {r : Port} {v : Word} (h : allowedPrim c ⟨u, .port r v⟩) :
    portValueLegal r v.toNat := by
  obtain ⟨hv, -⟩ := h
  cases r with
  | data => rcases hv with rfl | rfl | rfl <;> simp [portValueLegal]
  | direction => rcases hv with rfl | rfl <;> simp [portValueLegal]
  | control =>
    obtain rfl : v = 1 := hv
    rfl

/-- An allowed primitive appends one event, and that event is legal (R11, R36). -/
theorem prim_run_legal_event (p : Prim) (s : State) (hwf : s.cfg.wf = true) (hp : allowedPrim s.cfg p) :
    ∃ e, (p.run s).trace = s.trace ++ [e] ∧ portEventLegal s.cfg e := by
  obtain ⟨-, -, -, -, hports, hseqs, hrtc⟩ := config_wf_limits s.cfg hwf
  obtain ⟨u, a⟩ := p
  cases a with
  | port r v =>
    exact ⟨_, by simp [Prim.run, Access.run], portEventLegal_portWrite hports r (allowedPrim_port hp)⟩
  | txKnock bit k =>
    exact ⟨_, by simp [Prim.run, Access.run]; rfl, portEventLegal_portWrite hports .data (knockValue_legal _)⟩
  | txCommit bit n =>
    exact ⟨_, by simp [Prim.run, Access.run]; rfl, portEventLegal_portWrite hports .data (commitValue_legal _)⟩
  | rxKnock k =>
    exact ⟨_, by simp [Prim.run, Access.run], portEventLegal_portWrite hports .data (knockValue_legal false)⟩
  | rxCommit =>
    exact ⟨_, by simp [Prim.run, Access.run], portEventLegal_portWrite hports .data (commitValue_legal false)⟩
  | pageWrite q kernel w =>
    obtain ⟨⟨e, he, hw⟩, -⟩ := hp
    exact ⟨_, by simp [Prim.run, Access.run, State.pageWrite], portEventLegal_configured (hseqs e he w hw)⟩
  | rtcEnable => exact ⟨_, by simp [Prim.run, Access.run, State.rtcEnable], portEventLegal_configured hrtc⟩
  | rxSample n =>
    exact ⟨.rd s.cfg.gpioData Config.portW ({ u.apply s with bitcnt := n } : State).dataDraw.toNat,
      by simp [Prim.run, Access.run, State.sample], trivial⟩
  | readRef =>
    exact ⟨.rd s.cfg.checksumAddr Config.cw ((u.apply s).romDraw s.cfg.checksumAddr).toNat,
      by simp [Prim.run, Access.run, State.readRef], trivial⟩
  | probe q exits =>
    refine ⟨.rd (s.cfg.probeAddr q) Config.cw ((u.apply s).romDraw (s.cfg.probeAddr q)).toNat, ?_, trivial⟩
    simp only [Prim.run, Access.run, exitOnMatch]
    split <;> simp [State.probe]
  | ieSave => exact ⟨.ieRd _, by simp [Prim.run, Access.run, State.ieSave]; rfl, trivial⟩
  | ieClear => exact ⟨.ieWr _, by simp [Prim.run, Access.run]; rfl, trivial⟩
  | ieRestore => exact ⟨.ieWr _, by simp [Prim.run, Access.run]; rfl, trivial⟩

theorem prim_run_portsLegal (p : Prim) (s : State) (hp : allowedPrim s.cfg p) (hs : PortsLegal s) :
    PortsLegal (p.run s) := by
  obtain ⟨hwf, hlegal⟩ := hs
  obtain ⟨e, htrace, he⟩ := prim_run_legal_event p s hwf hp
  rw [PortsLegal, prim_run_cfg, htrace]
  exact ⟨hwf, List.forall_mem_append.2 ⟨hlegal, List.forall_mem_singleton.2 he⟩⟩

theorem portsLegal_stepKeeps : StepKeeps PortsLegal where
  refuse _ h := h
  accept _ _ h := h
  complete _ _ h := h
  raise _ _ h := h
  prim i p s hp h := prim_run_portsLegal p s (program_allowed s.cfg i p hp) h
  inbox _ _ h := h
  setIe _ _ _ h := h
  hostReset _ h := h

/-! ## The ranges of the internal registers (R26, R27, R31) -/

/-- The sample enters at bit 1, so a shift leaves bit 0 of `RXACC` zero (R26, R110). -/
theorem rxShift_bit0 (acc : BitVec 9) (r : Word) : (rxShift acc r).getLsbD 0 = false := by
  rw [rxShift_eq]
  split <;> simp

/-- The settings before an event stay in range: the counter restarts, and a flash page's index is below `N_FLASH`. -/
theorem setup_apply_registersInRange {u : Setup} {a : Access} {s : State} (hp : allowedPrim s.cfg ⟨u, a⟩)
    (hs : RegistersInRange s) : RegistersInRange (u.apply s) := by
  obtain ⟨hwf, hrx, hbit, hknock, hpage⟩ := hs
  obtain ⟨-, -, -, hflash, -, -, -⟩ := config_wf_limits s.cfg hwf
  obtain ⟨-, hu⟩ := hp
  cases u with
  | none => exact ⟨hwf, hrx, hbit, hknock, hpage⟩
  | loadTx v => exact ⟨hwf, hrx, Nat.zero_le 8, hknock, hpage⟩
  | clearRx => exact ⟨hwf, BitVec.getLsbD_zero, Nat.zero_le 8, hknock, hpage⟩
  | pageIndex i => exact ⟨hwf, hrx, hbit, hknock, le_trans hu hflash⟩

/-- A port write touches none of the ranged registers. -/
theorem portWrite_registersInRange {r : Port} {v : Word} {s : State} (hs : RegistersInRange s) :
    RegistersInRange (s.portWrite r v) := by
  simpa [RegistersInRange] using hs

/-- An allowed access counts knocks and bits within their ranges and shifts a zero into `RXACC[0]`. -/
theorem access_run_registersInRange {u : Setup} {a : Access} {s : State} (hp : allowedPrim s.cfg ⟨u, a⟩)
    (hs : RegistersInRange s) : RegistersInRange (a.run s) := by
  obtain ⟨hcmd, hwrite, hread, -, -, -, -⟩ := config_wf_limits s.cfg hs.1
  obtain ⟨ha, -⟩ := hp
  have ⟨hwf, hrx, hbit, hknock, hpage⟩ := hs
  cases a with
  | port r v => exact portWrite_registersInRange hs
  | txKnock bit k => exact portWrite_registersInRange ⟨hwf, hrx, hbit, by simp only at ha ⊢; omega, hpage⟩
  | txCommit bit n => exact portWrite_registersInRange ⟨hwf, hrx, ha, Nat.zero_le 5, hpage⟩
  | rxKnock k => exact portWrite_registersInRange ⟨hwf, hrx, hbit, le_trans ha hread, hpage⟩
  | rxCommit => exact portWrite_registersInRange ⟨hwf, hrx, hbit, Nat.zero_le 5, hpage⟩
  | rxSample n => exact ⟨hwf, rxShift_bit0 _ _, ha, hknock, hpage⟩
  | probe q exits =>
    simp only [Access.run, exitOnMatch]
    split <;> exact hs
  | ieSave | ieClear | ieRestore | readRef | pageWrite _ _ _ | rtcEnable => exact hs

theorem registersInRange_stepKeeps : StepKeeps RegistersInRange where
  refuse _ h := h
  accept _ _ h := h
  complete _ _ h := h
  raise _ _ h := h
  prim i p s hp h := by
    have hallowed := program_allowed s.cfg i p hp
    exact access_run_registersInRange (u := p.setup) (by rwa [setup_apply_cfg]) (setup_apply_registersInRange hallowed h)
  inbox _ _ h := h
  setIe _ _ _ h := h
  hostReset _ h := ⟨h.1, BitVec.getLsbD_zero, Nat.zero_le 8, Nat.zero_le 5, Nat.zero_le 512⟩

/-! ## The configuration, `FAULT`, and what only grows (R21, R33, R41) -/

theorem cfg_stepKeeps (c : Config) : StepKeeps fun s => s.cfg = c where
  refuse _ h := h
  accept _ _ h := h
  complete _ _ h := h
  raise _ _ h := h
  prim _ p s _ h := (prim_run_cfg p s).trans h
  inbox _ _ h := h
  setIe _ _ _ h := h
  hostReset _ h := h

theorem prim_run_fault (p : Prim) (s : State) : (p.run s).fault = s.fault := by
  obtain ⟨-, -, -, hfault, -⟩ := prim_run_frame p s
  exact hfault

theorem prim_run_delivered (p : Prim) (s : State) : (p.run s).delivered = s.delivered := by
  obtain ⟨-, -, -, -, -, hdelivered, -⟩ := prim_run_frame p s
  exact hdelivered

theorem prim_run_inbox (p : Prim) (s : State) : (p.run s).inbox = s.inbox := by
  obtain ⟨-, -, -, -, -, -, hinbox, -⟩ := prim_run_frame p s
  exact hinbox

theorem fault_stepKeeps (m : FaultMark) : StepKeeps fun s => s.fault = some m where
  refuse _ h := h
  accept _ _ h := h
  complete _ _ h := h
  raise _ s h := by rw [State.raiseFault_fault, h, stickyFault]
  prim _ p s _ h := (prim_run_fault p s).trans h
  inbox _ _ h := h
  setIe _ _ _ h := h
  hostReset _ h := h

/-- The observation of R41 extends one that stood before. -/
def Extends (trace : List Event) (delivered : List Delivery) (s : State) : Prop :=
  trace <+: s.trace ∧ delivered <+: s.delivered

theorem extends_stepKeeps (trace : List Event) (delivered : List Delivery) : StepKeeps (Extends trace delivered) where
  refuse _ h := h
  accept _ _ h := h
  complete _ _ h := ⟨h.1, h.2.trans (List.prefix_append _ _)⟩
  raise _ _ h := ⟨h.1, h.2.trans (List.prefix_append _ _)⟩
  prim _ p s _ h := by
    obtain ⟨e, he⟩ := prim_run_trace p s
    rw [Extends, he, prim_run_delivered]
    exact ⟨h.1.trans (List.prefix_append _ _), h.2⟩
  inbox _ _ h := h
  setIe _ _ _ h := h
  hostReset _ h := h

/-! ## A Busy block (R20, R22, R24) -/

theorem inbox_operationKeeps (l : List HostMove) : OperationKeeps fun s => s.inbox = l where
  refuse _ h := h
  accept _ _ h := h
  complete _ _ h := h
  raise _ _ h := h
  prim _ p s _ h := (prim_run_inbox p s).trans h

/-- A meaning asked for while Busy is refused (R22, R206; log 14). -/
theorem exec_busy (i : Instr) (s : State) (hs : s.seqState = .busy) : exec i s = .refused .busy := by
  cases ha : i.accepted with
  | true => rw [exec_eq_call i s ha, State.call, hs]
  | false =>
    cases i with
    | refused why p => rw [exec, execRefused, hs]
    | _ => cases ha

/-- The event at `SEQ_PC` of an operation in progress. -/
theorem advance_event {i : Instr} {s : State} {p : Prim} (hf : operandFault i = none)
    (hp : (programOf s.cfg i)[s.seqPc]? = some p) : advance i s = p.run s := by
  simp only [advance, hf, hp]

/-- `SEQ_PC` after a primitive: the next position, or DETECT's epilogue after a match (R24, R173). -/
theorem prim_run_seqPc {i : Instr} {p : Prim} (s : State) (hp : p ∈ programOf s.cfg i) :
    (p.run s).seqPc = s.seqPc + 1 ∨
      i = .detect ∧ (p.run s).matched = true ∧ (p.run s).seqPc = detectExit s.cfg := by
  by_cases hi : i = .detect
  · obtain ⟨u, a⟩ := p
    cases a with
    | probe q exits =>
      obtain ⟨v, -, hv⟩ := probe_run q exits (u.apply s)
      have hpc : (u.apply s).seqPc = s.seqPc := by cases u <;> rfl
      rw [Prim.run, hv]
      by_cases hmatch : (exits && (v == (u.apply s).refSum)) = true
      · have hv' : (v == (u.apply s).refSum) = true := (Bool.and_eq_true_iff.1 hmatch).2
        exact .inr ⟨hi, hv', by rw [if_pos hmatch, setup_apply_cfg]⟩
      · exact .inl (by rw [if_neg hmatch, hpc])
    | _ => exact .inl (straight_seqPc _ s rfl)
  · exact .inl (straight_seqPc p s (straight_program s.cfg i hi p hp))

/-! ## The machine never stops (R22, R80, R200) -/

/-- Busy only with an accepted request in `REQ`. -/
def BusyAccepted (s : State) : Prop := s.seqState = .busy → s.req.instr.accepted = true

theorem busyAccepted_of_idle {s : State} (h : s.seqState = .idle) : BusyAccepted s := by
  intro hb
  rw [h] at hb
  cases hb

theorem busyAccepted_acceptStep (p : Presented) {s : State} (h : s.seqState = .idle) : BusyAccepted (s.acceptStep p) := by
  unfold State.acceptStep
  split
  · intro _
    obtain ⟨hreq, haccepted⟩ := request_instr_of_accepted ‹_›
    rw [State.accept_req, hreq]
    exact haccepted
  · exact busyAccepted_of_idle h

/-- One step of an operation in progress keeps `REQ` or ends Idle. -/
theorem busyAccepted_advance (i : Instr) {s : State} (h : BusyAccepted s) : BusyAccepted (advance i s) := by
  unfold advance
  split
  · exact busyAccepted_of_idle rfl
  · split
    · rename_i p _
      obtain ⟨hstate, hreq, -⟩ := prim_run_frame p s
      rwa [BusyAccepted, hstate, hreq]
    · exact busyAccepted_of_idle rfl

theorem step_call {s : State} {p : Presented} {rest : List HostMove} (hs : s.seqState = .idle)
    (hi : s.inbox = .call p :: rest) : step s = exec (decode p) { s with inbox := rest } := by
  simp only [step, State.turn, hs, State.idleTurn, hi]

theorem step_present {s : State} {p : Presented} {rest : List HostMove} (hs : s.seqState = .idle)
    (hi : s.inbox = .present p :: rest) : step s = .next ({ s with inbox := rest }.acceptStep p) := by
  simp only [step, State.turn, hs, State.idleTurn, hi]

/-- An Idle block goes on whatever the host's next move is. -/
theorem step_of_idle (s : State) (hs : s.seqState = .idle) : ∃ t, step s = .next t ∧ BusyAccepted t := by
  cases hi : s.inbox with
  | nil => exact ⟨s, by simp only [step, State.turn, hs, State.idleTurn, hi], busyAccepted_of_idle hs⟩
  | cons move rest =>
    cases move with
    | call p =>
      obtain ⟨t, ht, hidle⟩ := exec_idle (decode p) { s with inbox := rest } hs
      exact ⟨t, (step_call hs hi).trans ht, busyAccepted_of_idle hidle⟩
    | present p => exact ⟨_, step_present hs hi, busyAccepted_acceptStep p hs⟩
    | setIe b =>
      exact ⟨{ s with inbox := rest, ie := b }, by simp only [step, State.turn, hs, State.idleTurn, hi],
        busyAccepted_of_idle hs⟩
    | reset n =>
      exact ⟨{ s with inbox := rest }.hostReset, by simp only [step, State.turn, hs, State.idleTurn, hi],
        busyAccepted_of_idle rfl⟩

/-- A due reset is taken inside an operation (R220). -/
theorem step_busy_reset {s : State} {n : Nat} {rest : List HostMove} (hs : s.seqState = .busy)
    (hi : s.inbox = .reset n :: rest) (hn : n ≤ s.seqPc) : step s = .next { s with inbox := rest }.hostReset := by
  simp only [step, State.turn, hs, State.busyTurn, hi, if_pos hn]

/-- A Busy block with an accepted request goes on: a due reset, or the operation's next step. -/
theorem step_of_busy (s : State) (hs : s.seqState = .busy) (h : BusyAccepted s) :
    ∃ t, step s = .next t ∧ BusyAccepted t := by
  by_cases hdue : ∃ n rest, s.inbox = .reset n :: rest ∧ n ≤ s.seqPc
  · obtain ⟨n, rest, hi, hn⟩ := hdue
    exact ⟨_, step_busy_reset hs hi hn, busyAccepted_of_idle rfl⟩
  · push Not at hdue
    exact ⟨_, step_busy s hs (h hs) hdue, busyAccepted_advance _ h⟩

/-! ## One call and the run event by event (R34) -/

/-- An operation without an early exit has as many events as its program has primitives. -/
theorem runOperation_trace_length {i : Instr} (hf : operandFault i = none) (hd : i ≠ .detect) (a : State) :
    (runOperation i a).trace.length = a.trace.length + (programOf a.cfg i).length := by
  rw [runOperation_of_straight hf hd, State.complete_trace, runPrims_trace_length]

/-- Accepted and run one event a step to its return, an operation ends where its body ends. -/
theorem run_operation (s : State) (i : Instr) (r : Req) (hin : s.inbox = []) (ha : i.accepted = true)
    (hr : r.instr = i) :
    Host.Core.run Sys2Proof.core ((runOperation i (s.accept r)).trace.length - s.trace.length + 1) (s.accept r) =
      .next (runOperation i (s.accept r)) := by
  cases hf : operandFault i with
  | some m =>
    rw [runOperation_of_fault hf, State.raiseFault_trace, State.accept_trace, Nat.sub_self]
    exact run_faulting_operation s i r m hin ha hr hf
  | none =>
    by_cases hd : i = .detect
    · subst hd
      exact run_detect_operation s r hin hr
    · rw [runOperation_trace_length hf hd, runOperation_of_straight hf hd, State.accept_trace, Nat.add_sub_cancel_left]
      exact run_straight_operation s i r hin ha hr hd hf

/-! ## The statements -/

/-- Settles O47: every event a primitive appends is legal, and nothing else reaches the trace or the configuration. -/
theorem stepKeepsPortWritesLegal : Obligations.StepKeepsPortWritesLegal :=
  fun _ _ hs h => step_keeps portsLegal_stepKeeps h hs

/-- Settles O49: the primitives keep the ranges, and a reset of the host zeroes the registers. -/
theorem stepKeepsRegistersInRange : Obligations.StepKeepsRegistersInRange :=
  fun _ _ hs h => step_keeps registersInRange_stepKeeps h hs

/-- Settles O55: by the block's state; the one way to become Busy is the acceptance of an accepted encoding, whose latched
request is accepted too. -/
theorem stepAlwaysGoesOn : Obligations.StepAlwaysGoesOn := by
  intro s h
  cases hs : s.seqState with
  | idle => exact step_of_idle s hs
  | busy => exact step_of_busy s hs h

/-- Settles O10: the step runs the primitive at `SEQ_PC`. -/
theorem busyStepIsOneEvent : Obligations.BusyStepIsOneEvent := by
  intro s hs ha hf hreset hpc
  have hget : (programOf s.cfg s.req.instr)[s.seqPc]? = some (programOf s.cfg s.req.instr)[s.seqPc] :=
    List.getElem?_eq_getElem hpc
  generalize (programOf s.cfg s.req.instr)[s.seqPc] = p at hget
  obtain ⟨e, he⟩ := prim_run_trace p s
  obtain ⟨hstate, hreq, -, -, -, hdelivered, hinbox, -⟩ := prim_run_frame p s
  have hstep : step s = .next (p.run s) := by rw [step_busy s hs ha hreset, advance_event hf hget]
  exact ⟨p.run s, e, hstep, he, hstate.trans hs, hreq, hdelivered, hinbox, prim_run_seqPc s (List.mem_of_getElem? hget)⟩

/-- Settles O12: both views latch the same request and reach the end of the same body. -/
theorem callEqualsEventByEventRun : Obligations.CallEqualsEventByEventRun := by
  intro s p hs ha
  obtain ⟨hinstr, haccepted⟩ := request_instr_of_accepted ha
  have hcall : step { s with inbox := [.call p] } =
      .next (runOperation (decode p).operation ({ s with inbox := [] }.accept p.request)) := by
    refine (step_call (s := { s with inbox := [.call p] }) hs rfl).trans ?_
    rw [exec_decode ha]
    exact call_idle _ _ _ hs
  have haccept : step { s with inbox := [.present p] } = .next ({ s with inbox := [] }.accept p.request) := by
    refine (step_present (s := { s with inbox := [.present p] }) hs rfl).trans ?_
    rw [State.acceptStep, if_pos ha]
  refine ⟨_, hcall, ?_⟩
  rw [run_succ haccept]
  exact run_operation { s with inbox := [] } _ p.request rfl haccepted hinstr

/-- Settles O14: without a due reset a Busy step is the sequencer's, which leaves the moves alone. -/
theorem busyBlockTakesNoRequest : Obligations.BusyBlockTakesNoRequest := by
  refine ⟨fun s t hs hreset h => ?_, exec_busy⟩
  obtain ⟨hi, -⟩ | ⟨_, _, hi, -⟩ | ⟨_, _, hi, -⟩ | ⟨_, _, hi, -⟩ | ⟨n, rest, hinbox, hdue, -⟩ | ⟨-, -, rfl⟩ := step_cases h
  case inr.inr.inr.inr.inl =>
    rcases hdue with hi | hn
    · cases hs.symm.trans hi
    · exact absurd (hreset n rest hinbox) (Nat.not_lt.2 hn)
  case inr.inr.inr.inr.inr => exact advance_keeps (inbox_operationKeeps s.inbox) _ s rfl
  all_goals cases hs.symm.trans hi

/-- Settles O19: with eight answers listed, the samples that follow them are those eight. -/
theorem samplesAreTheNextAnswers : Obligations.SamplesAreTheNextAnswers := by
  intro s hs h8
  obtain ⟨rs, hlen, hprefix, hrun⟩ := runPrims_byteIn (s.accept ⟨0x2, 0, []⟩)
  obtain rfl : s.answers.take 8 = rs := hprefix.eq_of_length (by simp [hlen, h8])
  rw [exec, execReadByte, call_idle _ _ _ hs]
  refine ⟨_, rfl, ?_⟩
  rw [completeRx, hrun]
  exact ⟨rfl, congrArg Result.byte (rxByte_twice _), rfl, rfl⟩

/-- Settles O41: no fault at power-on, and every operation that writes `FAULT` keeps the first one. -/
theorem faultMarkIsSticky : Obligations.FaultMarkIsSticky :=
  ⟨fun _ => rfl, fun _ _ m hm h => step_keeps (fault_stepKeeps m) h hm⟩

/-- Settles O53: a primitive appends to the trace, a completion or a fault to the deliveries, nothing else writes them. -/
theorem stepOnlyAppendsToTrace : Obligations.StepOnlyAppendsToTrace :=
  fun s _ h => step_keeps (extends_stepKeeps s.trace s.delivered) h ⟨List.prefix_rfl, List.prefix_rfl⟩

/-- Settles O54: no shared operation writes the configuration. -/
theorem stepKeepsConfiguration : Obligations.StepKeepsConfiguration :=
  fun s _ h => step_keeps (cfg_stepKeeps s.cfg) h rfl

/-- Settles O6. -/
theorem stepRunsTheDecodedInstruction : Obligations.StepRunsTheDecodedInstruction :=
  fun _ _ _ hs hi => step_call hs hi

/-- Settles O46: nothing is listed at reset. -/
theorem resetMemoryCanonical : Obligations.ResetMemoryCanonical := rfl

/-- Settles O48: the configuration is well formed whatever the OPEN values are, and the trace is empty. -/
theorem resetPortWritesLegal : Obligations.ResetPortWritesLegal :=
  ⟨Scope.resetConfigurationWellFormed, List.forall_mem_nil _⟩

/-- Settles O50: the configuration is well formed whatever the OPEN values are, and the registers are zero. -/
theorem resetRegistersInRange : Obligations.ResetRegistersInRange :=
  ⟨Scope.resetConfigurationWellFormed, rfl, Nat.zero_le 8, Nat.zero_le 5, Nat.zero_le 512⟩

/-- Settles O52: no operation is in progress at reset. -/
theorem resetInterruptBracket : Obligations.ResetInterruptBracket :=
  fun hbusy => nomatch hbusy

/-- Settles O56. -/
theorem resetLeavesIdleClearEmpty : Obligations.ResetLeavesIdleClearEmpty :=
  fun _ => ⟨rfl, rfl, rfl, rfl⟩

end Sys2Proof.Proofs.StateRules
end

section
/-!
The canonical form of the memory of register bytes (R50, R52; log 11): only the writes of `PAGE_SEQ` and `RTC_EN` reach it,
and each of them keeps the form.
-/

namespace Sys2Proof.Proofs.MemoryForm

open Sys2Proof.Machine Sys2Proof.Laws

/-- The bytes last written at the paging registers are listed in the canonical form. -/
def MemoryCanonical (s : State) : Prop := Memory.wf s.mem = true

@[simp] theorem setup_apply_mem (u : Setup) (s : State) : (u.apply s).mem = s.mem := by cases u <;> rfl

@[simp] theorem exitOnMatch_mem (exits : Bool) (s : State) : (exitOnMatch exits s).mem = s.mem := by
  unfold exitOnMatch
  split <;> rfl

theorem memWrite_memoryCanonical (w : BusWrite) {s : State} (hs : MemoryCanonical s) : MemoryCanonical (s.memWrite w) :=
  memory_wf_writeBytes w.width s.mem w.addr w.value hs

/-- The two kinds of register write go through `MemWrite`; no other access reaches the memory. -/
theorem access_run_memoryCanonical (a : Access) {s : State} (hs : MemoryCanonical s) : MemoryCanonical (a.run s) := by
  cases a with
  | pageWrite _ _ w => exact memWrite_memoryCanonical w hs
  | rtcEnable => exact memWrite_memoryCanonical s.cfg.rtcEn hs
  | port _ _ | txKnock _ _ | txCommit _ _ | rxKnock _ | rxCommit =>
    rw [MemoryCanonical, Access.run, State.portWrite_mem]
    exact hs
  | probe q exits =>
    rw [MemoryCanonical, Access.run, exitOnMatch_mem]
    exact hs
  | rxSample _ | ieSave | ieClear | ieRestore | readRef => exact hs

theorem prim_run_memoryCanonical (p : Prim) {s : State} (hs : MemoryCanonical s) : MemoryCanonical (p.run s) :=
  access_run_memoryCanonical p.access (by rwa [MemoryCanonical, setup_apply_mem])

theorem memoryCanonical_stepKeeps : StepKeeps MemoryCanonical where
  refuse _ h := h
  accept _ _ h := h
  complete _ _ h := h
  raise _ _ h := h
  prim _ p _ _ h := prim_run_memoryCanonical p h
  inbox _ _ h := h
  setIe _ _ _ h := h
  hostReset _ h := h

/-- Settles O45: a primitive writes the memory through `Memory.writeBytes` alone, and no other shared operation writes it. -/
theorem stepKeepsMemoryCanonical : Obligations.StepKeepsMemoryCanonical :=
  fun _ _ hs h => step_keeps memoryCanonical_stepKeeps h hs

end Sys2Proof.Proofs.MemoryForm
end

section
/-!
Encodings and requests (30_encoding.md). The decoder and the encoder are inverse on well-formed instructions; what the decoder
accepts is said once for each shape of request and then for the whole word. The steps that take a request, refuse an encoding
or return from an operation, and the wire command bytes, follow from these and from the rules of the state.
-/

namespace Sys2Proof.Proofs.Encoding

open Sys2Proof.Machine Sys2Proof.Safety Sys2Proof.Laws Sys2Proof.Proofs.StateRules

/-! ## Decoding and encoding are inverse (R71 to R76, R81) -/

/-- A request word built from its fields is latched as those fields, so an operation encoded by one decodes to what its
request names. -/
theorem decode_encode_operation {i : Instr} {op : BitVec 4} {imm : Byte} {fs : List Byte}
    (he : encode i = .hostWord (requestWord op imm) fs) (ha : i.accepted = true) (hi : i.operation = i) :
    decode (encode i) = i := by
  obtain ⟨hlatch, -⟩ := latch i ha
  rw [he, request_of_requestWord] at hlatch
  rw [he]
  exact hlatch.trans hi

/-- The round trip of R71 to R76: for an operation it is what its encoding latches, for a wire byte its row of R75, and for a
refused encoding what it means to be well formed. -/
theorem decode_encode (i : Instr) (h : i.wf = true) : decode (encode i) = i := by
  cases i with
  | refused why p => exact beq_iff_eq.1 h
  | sendCmd _ | readByte | writeByte _ | readStatus | writeStatus _ | writeDatetime _ _ _ | resetChip | toBcd _
  | fromBcd _ | detect | enableAlt =>
    exact decode_encode_operation rfl rfl rfl
  | _ => rfl

/-- A refused encoding is the one presented, so it is refused again for the same reason. -/
theorem decode_wf (p : Presented) : (decode p).wf = true := by
  cases hp : decode p with
  | refused why q =>
    have hq : encode (decode p) = q := by rw [hp, encode]
    obtain rfl : p = q := (encode_decode p).symm.trans hq
    exact beq_iff_eq.2 hp
  | _ => rfl

/-! ## What is accepted (R78) -/

@[simp] theorem accepted_refused (why : Reject) (p : Presented) : (Instr.refused why p).accepted = false := rfl

theorem eq_refused_of_not_accepted {i : Instr} (h : i.accepted = false) : ∃ why p, i = .refused why p := by
  cases i with
  | refused why p => exact ⟨why, p, rfl⟩
  | _ => cases h

theorem accepted_decodeBare {p : Presented} {fs : List Byte} {i : Instr} (hi : i.accepted = true) :
    (decodeBare p fs i).accepted = true ↔ fs = [] := by
  unfold decodeBare
  split <;> simp [*]

theorem accepted_decodeNullary {p : Presented} {imm : Byte} {fs : List Byte} {i : Instr} (hi : i.accepted = true) :
    (decodeNullary p imm fs i).accepted = true ↔ imm = 0 ∧ fs = [] := by
  unfold decodeNullary
  split
  case isTrue himm => rw [accepted_decodeBare hi, and_iff_right himm]
  case isFalse himm => exact iff_of_false Bool.false_ne_true fun h => himm h.1

theorem length_ne_of_ofList {fs : List Byte} (h : DateTimeFields.ofList fs = none) : fs.length ≠ 7 := by
  intro hlen
  match fs, hlen with
  | [_, _, _, _, _, _, _], _ => cases h

theorem accepted_decodeDatetime {p : Presented} {imm : Byte} {fs : List Byte} :
    (decodeDatetime p imm fs).accepted = true ↔ imm.extractLsb' 2 6 = 0 ∧ fs.length = 7 := by
  unfold decodeDatetime
  split
  case isTrue himm =>
    rw [and_iff_right himm]
    split
    case h_1 f hf => exact iff_of_true rfl (congrArg List.length (toList_of_ofList hf)).symm
    case h_2 hf => exact iff_of_false Bool.false_ne_true (length_ne_of_ofList hf)
  case isFalse himm => exact iff_of_false Bool.false_ne_true fun h => himm h.1

/-- R78 without `MBZ`, by the operation code. -/
theorem accepted_decodeOp (p : Presented) (imm : Byte) (fs : List Byte) (op : Nat) :
    (decodeOp p imm fs op).accepted = true ↔
      (1 ≤ op ∧ op ≤ 11) ∧ (op ∈ [2, 4, 7, 10, 11] → imm = 0) ∧
      (op = 6 → imm.extractLsb' 2 6 = 0 ∧ fs.length = 7) ∧ (op ≠ 6 → fs = []) := by
  unfold decodeOp
  split
  case h_1 | h_3 | h_5 | h_8 | h_9 =>
    rw [accepted_decodeBare (by rfl)]
    simp
  case h_2 | h_4 | h_7 | h_10 | h_11 =>
    rw [accepted_decodeNullary (by rfl)]
    simp
  case h_6 =>
    rw [accepted_decodeDatetime]
    simp
  case h_12 =>
    refine iff_of_false Bool.false_ne_true fun ⟨⟨h1, h11⟩, _⟩ => ?_
    interval_cases op <;> contradiction

theorem mbzField_eq_zero_iff (w : Word) : mbzField w = 0 ↔ w.toNat / 256 % 16 = 0 := by
  rw [← mbzField_toNat, ← BitVec.toNat_inj]
  rfl

theorem immField_eq_zero_iff (w : Word) : immField w = 0 ↔ w.toNat % 256 = 0 := by
  rw [← immField_toNat, ← BitVec.toNat_inj]
  rfl

/-- `IMM8[7:2]` of a request word (R78). -/
theorem immField_high_eq_zero_iff (w : Word) : (immField w).extractLsb' 2 6 = 0 ↔ w.toNat % 256 / 4 = 0 := by
  rw [← immField_toNat, ← BitVec.toNat_inj]
  have := (immField w).isLt
  simp [Nat.shiftRight_eq_div_pow]
  omega

/-- With an operation code of R73 the first thing that must hold is `MBZ = 0`; without one `MBZ` is not looked at. -/
theorem accepted_decode_hostWord (w : Word) (fs : List Byte) :
    (decode (.hostWord w fs)).accepted = true ↔
      mbzField w = 0 ∧ (decodeOp (.hostWord w fs) (immField w) fs (opField w).toNat).accepted = true := by
  rw [decode]
  split
  case isTrue hmbz =>
    obtain ⟨-, -, hmbz⟩ := hmbz
    exact iff_of_false Bool.false_ne_true fun h => hmbz h.1
  case isFalse hmbz =>
    refine ⟨fun h => ⟨?_, h⟩, fun h => h.2⟩
    obtain ⟨⟨h1, h11⟩, -⟩ := (accepted_decodeOp ..).1 h
    tauto

theorem accepted_decodeWire (c : Byte) : (decodeWire c).accepted = true ↔ c.toNat / 16 = 6 := by
  revert c
  decide

/-- The reserved operation codes 0x0 and 0xC to 0xF (R73). -/
theorem decodeOp_reserved (p : Presented) (imm : Byte) (fs : List Byte) {op : Nat} (h : op = 0 ∨ 12 ≤ op) :
    decodeOp p imm fs op = .refused .reservedOp p := by
  unfold decodeOp
  split
  case h_12 => rfl
  all_goals omega

theorem decode_reserved (w : Word) (fs : List Byte) (h : (opField w).toNat = 0 ∨ 12 ≤ (opField w).toNat) :
    decode (.hostWord w fs) = .refused .reservedOp (.hostWord w fs) := by
  rw [decode, if_neg (by omega), decodeOp_reserved _ _ _ h]

/-! ## The steps that refuse, place and return (R79, R80) -/

/-- Set before or not, the refusal mark is set afterwards, and it has one value (R203). -/
theorem refuse_eq (s : State) : s.refuse = { s with refusal := some .refusedEncoding } := by
  unfold State.refuse
  cases s.refusal <;> rfl

theorem exec_refused (why : Reject) (p : Presented) {s : State} (hs : s.seqState = .idle) :
    exec (.refused why p) s = .next { s with refusal := some .refusedEncoding } := by
  rw [exec, execRefused, refuse_eq, hs]

theorem step_placeRequest (p : Presented) (s : State) :
    step (s.placeRequest p) = exec (decode p) { s with seqState := .idle } :=
  step_call (s := s.placeRequest p) rfl rfl

/-- Past its last event an operation in progress returns. -/
theorem advance_return {i : Instr} {s : State} (hf : operandFault i = none) (hpc : (programOf s.cfg i).length ≤ s.seqPc) :
    advance i s = s.complete (resultOf i s) := by
  simp only [advance, hf, List.getElem?_eq_none hpc]

/-- A completion delivers one pair, which is no fault (R80, R202). -/
theorem complete_delivers (r : Option Result) (s : State) :
    ∃ c, (s.complete r).delivered = s.delivered ++ [⟨s.req, c⟩] ∧ ∀ m, c ≠ .fault m := by
  cases r with
  | none => exact ⟨.done, rfl, nofun⟩
  | some v => exact ⟨.result v, rfl, nofun⟩

/-! ## The wire command bytes (R74, R75, R106; log 1) -/

/-- A wire command byte is SEND_CMD of it. -/
theorem operation_decode_wireByte {c : Byte} (h : (decode (.wireByte c)).accepted = true) :
    (decode (.wireByte c)).operation = .sendCmd c := by
  obtain ⟨hreq, -⟩ := request_instr_of_accepted h
  exact hreq.symm.trans (decode_encode (.sendCmd c) rfl)

theorem exec_decode_wireByte {c : Byte} (h : (decode (.wireByte c)).accepted = true) (s : State) :
    exec (decode (.wireByte c)) s = sendCommand c s := by
  rw [exec_decode h, operation_decode_wireByte h]
  rfl

/-- The command shift-out as a whole operation (R106, R107). -/
theorem sendCommand_idle (c : Byte) {s : State} (hs : s.seqState = .idle) :
    sendCommand c s = .next { s with
      req := ⟨0x1, c, []⟩, seqPc := 8 * (s.cfg.kCmd + 1), txsr := c, bitcnt := 8, kcnt := 0
      data := if c.getLsbD 0 then 7 else 5, trace := s.trace ++ commandEvents s.cfg c
      delivered := s.delivered ++ [⟨⟨0x1, c, []⟩, .done⟩] } := by
  rw [sendCommand, call_idle _ _ _ hs, runPrims_cmdOut _ _ _ rfl]
  simp [State.complete, State.accept, commitValue_eq, hs]

/-! ## The statements -/

/-- Settles O1: the request that an encoding latches names the operation, and the rest is the table of R75 and the meaning of
well-formedness. -/
theorem decodeOfEncodeIsIdentity : Obligations.DecodeOfEncodeIsIdentity := decode_encode

/-- Settles O2: the encoder reads back what was presented, a refused encoding included. -/
theorem decodingIsTotalAndInjective : Obligations.DecodingIsTotalAndInjective :=
  fun p => ⟨decode_wf p, encode_decode p⟩

/-- Settles O3: clause by clause, the fields of R71 read as numbers. -/
theorem acceptedIffRequestWellFormed : Obligations.AcceptedIffRequestWellFormed := by
  intro w fs
  rw [accepted_decode_hostWord, accepted_decodeOp, opField_toNat, mbzField_eq_zero_iff, immField_eq_zero_iff,
    immField_high_eq_zero_iff]
  tauto

/-- Settles O11: the step is the sequencer's, which finds no event left and completes. -/
theorem busyStepAfterLastEventReturns : Obligations.BusyStepAfterLastEventReturns := by
  intro s hs ha hf hreset hpc
  obtain ⟨c, hdelivered, hc⟩ := complete_delivers (resultOf s.req.instr s) s
  have hstep : step s = .next (s.complete (resultOf s.req.instr s)) := by
    rw [step_busy s hs ha hreset, advance_return hf hpc]
  exact ⟨_, c, hstep, rfl, rfl, rfl, hdelivered, hc⟩

/-- Settles O20: each row of the table is the byte's own, and what it runs is the command shift-out. -/
theorem wireCommandBytesAreShiftedOut : Obligations.WireCommandBytesAreShiftedOut := by
  intro s hs q hq
  have hrow : decode (.wireByte q.2) = q.1 ∧ q.1.accepted = true := by
    revert q
    decide
  obtain ⟨hdecode, haccepted⟩ := hrow
  refine ⟨hdecode, 8, 0, by decide, by decide, ?_⟩
  rw [← hdecode] at haccepted ⊢
  rw [exec_decode_wireByte haccepted, sendCommand_idle _ hs]

/-- Settles O4: nine closed decodings. -/
theorem writtenOutWordsDecode : Obligations.WrittenOutWordsDecode := by
  unfold Obligations.WrittenOutWordsDecode
  decide

/-- Settles O5: eight indices, the guard of R74 above them, and the layout of the wire bytes. -/
theorem commandByteFormulas : Obligations.CommandByteFormulas := by
  refine ⟨by decide, fun x hx => ?_, accepted_decodeWire⟩
  have habove : ¬x ≤ 7 := Nat.not_le.2 hx
  exact ⟨if_neg habove, if_neg habove⟩

/-- Settles O7: placing a word makes it the host's next call at an Idle block. -/
theorem placedWordRunsNext : Obligations.PlacedWordRunsNext := by
  intro s nbits w i h
  obtain ⟨-, ⟨⟩⟩ := Option.ite_none_right_eq_some.1 h
  exact step_placeRequest ..

/-- Settles O8: the acceptance step latches the request of an accepted encoding and marks any other. -/
theorem presentedRequestIsAccepted : Obligations.PresentedRequestIsAccepted := by
  intro s p rest hs hi
  rw [step_present hs hi]
  refine ⟨?_, ?_, fun hrefused => ?_⟩
  · rintro w fs rfl ha
    rw [State.acceptStep, if_pos ha]
    rfl
  · rintro c rfl ha
    rw [State.acceptStep, if_pos ha]
    rfl
  · rw [State.acceptStep, if_neg (Bool.eq_false_iff.1 hrefused), refuse_eq]

/-- Settles O9: an instruction that is not accepted is `refused`, and running that sets the mark. -/
theorem refusedWordOnlySetsTheMark : Obligations.RefusedWordOnlySetsTheMark := by
  refine ⟨fun s why p hs => exec_refused why p hs, fun s w fs hs ha => ?_, fun w fs hop => ?_⟩
  · obtain ⟨why, p, hrefused⟩ := eq_refused_of_not_accepted ha
    rw [hrefused, exec_refused why p hs]
  · exact decode_reserved w fs (by rwa [opField_toNat])

end Sys2Proof.Proofs.Encoding
end

section
/-!
The operations on the three-wire port (40_bus.md, 41_rtc_protocol.md). The next state of each bare operation as one equation,
from the equations of the shift-outs and the shift-in; and the frame that all of these operations share.
-/

namespace Sys2Proof.Proofs.Bus

open Sys2Proof.Machine Sys2Proof.Safety Sys2Proof.Laws Sys2Proof.Proofs.Encoding

/-! ## The bare operations (R107, R109, R111) -/

/-- The data shift-out as a whole operation (R108, R109). -/
theorem writeByte_idle (v : Byte) {s : State} (hs : s.seqState = .idle) :
    exec (.writeByte v) s = .next { s with
      req := ⟨0x3, v, []⟩, seqPc := 8 * (s.cfg.kWrite + 1), txsr := v, bitcnt := 8, kcnt := 0
      data := if v.getLsbD 7 then 7 else 5, trace := s.trace ++ byteEvents s.cfg v
      delivered := s.delivered ++ [⟨⟨0x3, v, []⟩, .done⟩] } := by
  rw [exec, execWriteByte, call_idle _ _ _ hs, runPrims_byteOut _ _ _ rfl]
  simp [State.complete, State.accept, commitValue_eq, hs]

/-- The data shift-in as a whole operation (R110, R111): `RXACC` ends as twice the byte that is the result. -/
theorem readByte_idle {s : State} (hs : s.seqState = .idle) :
    ∃ rs : List Word, rs.length = 8 ∧
      exec .readByte s = .next { s with
        req := ⟨0x2, 0, []⟩, seqPc := 8 * (s.cfg.kRead + 2), rxacc := BitVec.ofNat 9 (2 * sampledValue rs)
        bitcnt := 8, kcnt := 0, data := 5, trace := s.trace ++ readEvents s.cfg rs
        result := .byte (BitVec.ofNat 8 (sampledValue rs)), answers := s.answers.drop 8, draws := s.draws + 8
        delivered := s.delivered ++ [⟨⟨0x2, 0, []⟩, .result (.byte (BitVec.ofNat 8 (sampledValue rs)))⟩] } := by
  obtain ⟨rs, hlen, -, hrun⟩ := runPrims_byteIn (s.accept ⟨0x2, 0, []⟩)
  refine ⟨rs, hlen, ?_⟩
  rw [exec, execReadByte, call_idle _ _ _ hs, hrun, completeRx, rxByte_twice]
  simp [State.complete, State.accept, hs]

/-! ## The frame of the operations on the port (R37, R50, R107, R109, R111, R130) -/

/-- DIRECTION and CONTROL stand. -/
def KeepsWires (s t : State) : Prop := t.direction = s.direction ∧ t.control = s.control

/-- No byte came in: the accumulator, the result and the oracle's own fields stand. -/
def KeepsReceiver (s t : State) : Prop :=
  t.rxacc = s.rxacc ∧ t.result = s.result ∧ t.answers = s.answers ∧ t.draws = s.draws

/-- What no operation on the port changes; `wires` and `receiver` are what an operation adds about DIRECTION and CONTROL
and about the receiver. -/
def SerialFrame (s t : State) (wires receiver : Prop) : Prop :=
  t.refSum = s.refSum ∧ t.matched = s.matched ∧ t.pageIdx = s.pageIdx ∧ t.ieSaved = s.ieSaved ∧
  t.refusal = s.refusal ∧ t.ie = s.ie ∧ t.page = s.page ∧ t.pagingMode = s.pagingMode ∧
  t.passthrough = s.passthrough ∧ (∀ a, Memory.read t.mem a = Memory.read s.mem a) ∧ t.inbox = s.inbox ∧
  t.cfg = s.cfg ∧ wires ∧ receiver

theorem sendCommand_frame {c : Byte} {s t : State} (h : sendCommand c s = .next t) :
    SerialFrame s t (KeepsWires s t) (KeepsReceiver s t) := by
  obtain ⟨-, rfl⟩ := call_next h
  rw [runPrims_cmdOut _ _ _ rfl]
  simp [SerialFrame, KeepsWires, KeepsReceiver]

theorem writeByte_frame {v : Byte} {s t : State} (h : execWriteByte v s = .next t) :
    SerialFrame s t (KeepsWires s t) (KeepsReceiver s t) := by
  obtain ⟨-, rfl⟩ := call_next h
  rw [runPrims_byteOut _ _ _ rfl]
  simp [SerialFrame, KeepsWires, KeepsReceiver]

theorem readByte_frame {s t : State} (h : execReadByte s = .next t) : SerialFrame s t (KeepsWires s t) True := by
  obtain ⟨-, rfl⟩ := call_next h
  obtain ⟨rs, -, -, hrun⟩ := runPrims_byteIn (s.accept ⟨0x2, 0, []⟩)
  rw [completeRx, hrun]
  simp [SerialFrame, KeepsWires]

/-- The shift-in starts from the state `u` that the transaction's own DIRECTION write leaves. -/
theorem readStatus_frame {s t : State} (h : execReadStatus s = .next t) : SerialFrame s t True True := by
  obtain ⟨-, rfl⟩ := call_next h
  rw [readStatusProgram, runPrims_transaction _ _ _ _ rfl, runPrims]
  generalize hu : Prim.run _ _ = u
  have hcfg : u.cfg = s.cfg := by rw [← hu, prim_run_cfg, State.accept_cfg]
  obtain ⟨rs, -, -, hrun⟩ := runPrims_byteIn u
  rw [State.accept_cfg, ← hcfg, completeRx, hrun, ← hu]
  simp [SerialFrame, Prim.run, Setup.apply, Access.run]

theorem writeStatus_frame {v : Byte} {s t : State} (h : execWriteStatus v s = .next t) :
    SerialFrame s t True (KeepsReceiver s t) := by
  obtain ⟨-, rfl⟩ := call_next h
  rw [writeStatusProgram, runPrims_transaction _ _ _ _ rfl, runPrims_byteOut]
  · simp [SerialFrame, KeepsReceiver]
  · rfl

/-- A faulting WRITE_DATETIME ends before its first event, any other runs its whole program. -/
theorem writeDatetime_frame {mode12 pm : Bool} {f : DateTimeFields} {s t : State}
    (h : execWriteDatetime mode12 pm f s = .next t) : SerialFrame s t True (KeepsReceiver s t) := by
  obtain ⟨-, rfl⟩ := call_next h
  split
  · simp [SerialFrame, KeepsReceiver]
  · rw [writeDatetimeProgram, runPrims_transaction _ _ _ _ rfl, runPrims_bytesOut]
    · simp [SerialFrame, KeepsReceiver]
    · rfl

theorem resetChip_frame {s t : State} (h : execResetChip s = .next t) :
    SerialFrame s t True (KeepsReceiver s t) := by
  obtain ⟨-, rfl⟩ := call_next h
  rw [resetChipProgram, runPrims_transaction _ _ _ _ rfl]
  simp [SerialFrame, KeepsReceiver, runPrims, Prim.run, Setup.apply, Access.run]

/-! ## The statements -/

/-- Settles O16: the encoding of SEND_CMD is `0x10cc`, and the command shift-out is its whole next state. -/
theorem sendCmdShiftsOutMsbFirst : Obligations.SendCmdShiftsOutMsbFirst :=
  fun c _ => ⟨decode_encode (.sendCmd c) rfl, fun hs => ⟨8, 0, by decide, by decide, sendCommand_idle c hs⟩⟩

/-- Settles O17: the encoding of WRITE_BYTE is `0x30vv`, and the data shift-out is its whole next state. -/
theorem writeByteShiftsOutLsbFirst : Obligations.WriteByteShiftsOutLsbFirst :=
  fun v _ => ⟨decode_encode (.writeByte v) rfl, fun hs => ⟨8, 0, by decide, by decide, writeByte_idle v hs⟩⟩

/-- Settles O18: the samples are the shift-in's, and the accumulator they leave holds the result. -/
theorem readByteShiftsInMsbFirst : Obligations.ReadByteShiftsInMsbFirst := by
  refine ⟨decode_encode .readByte rfl, fun s hs => ?_⟩
  obtain ⟨rs, hlen, hexec⟩ := readByte_idle hs
  exact ⟨rs, 8, 0, _, _, hlen, by decide, by decide, hexec⟩

/-- Settles O38: one frame for each shape of operation; the sixteen wire command bytes are SEND_CMD's. -/
theorem serialOperationsFrame : Obligations.SerialOperationsFrame := by
  intro i s t hserial h
  cases i with
  | toBcd _ | fromBcd _ | detect | enableAlt | refused _ _ => exact hserial.elim
  | readByte => exact readByte_frame h
  | writeByte _ => exact writeByte_frame h
  | readStatus => exact readStatus_frame h
  | writeStatus _ => exact writeStatus_frame h
  | writeDatetime _ _ _ => exact writeDatetime_frame h
  | resetChip => exact resetChip_frame h
  | _ => exact sendCommand_frame h

end Sys2Proof.Proofs.Bus
end

section
/-!
The chip-level transactions (41_rtc_protocol.md). The next state of each as one equation, from the equation of `TRANSACTION` and
those of the shift-outs and the shift-in; the number of events of each is the length of the trace that its equation appends.
-/

namespace Sys2Proof.Proofs.Transactions

open Sys2Proof.Machine Sys2Proof.Safety Sys2Proof.Laws Sys2Proof.Proofs.Encoding

/-! ## The next state of each transaction (R130 to R135) -/

/-- READ_STATUS (R131): the shift-in starts from the state `u` that the transaction's own DIRECTION write leaves. -/
theorem readStatus_idle {s : State} (hs : s.seqState = .idle) :
    ∃ rs : List Word, rs.length = 8 ∧
      exec .readStatus s = .next { s with
        req := ⟨0x4, 0, []⟩, seqPc := 4 + 8 * (s.cfg.kCmd + 1) + 1 + 8 * (s.cfg.kRead + 2), txsr := 0x63
        rxacc := BitVec.ofNat 9 (2 * sampledValue rs), bitcnt := 8, kcnt := 0, control := 1, data := 5, direction := 5
        trace := s.trace ++ wakeEvents s.cfg ++ commandEvents s.cfg 0x63 ++ [.wr s.cfg.gpioDir 2 5] ++
          readEvents s.cfg rs
        result := .byte (BitVec.ofNat 8 (sampledValue rs)), answers := s.answers.drop 8, draws := s.draws + 8
        delivered := s.delivered ++ [⟨⟨0x4, 0, []⟩, .result (.byte (BitVec.ofNat 8 (sampledValue rs)))⟩] } := by
  rw [exec, execReadStatus, call_idle _ _ _ hs, readStatusProgram, runPrims_transaction _ _ _ _ rfl, runPrims]
  generalize hu : Prim.run _ _ = u
  have hcfg : u.cfg = s.cfg := by rw [← hu, prim_run_cfg, State.accept_cfg]
  obtain ⟨rs, hlen, -, hrun⟩ := runPrims_byteIn u
  refine ⟨rs, hlen, ?_⟩
  rw [State.accept_cfg, ← hcfg, completeRx, hrun, rxByte_twice, ← hu]
  simp [State.complete, State.accept, Prim.run, Setup.apply, Access.run, State.portWrite, State.setPort, State.emit,
    portAddr, Config.portW, hs]

/-- WRITE_STATUS (R132). -/
theorem writeStatus_idle (v : Byte) {s : State} (hs : s.seqState = .idle) :
    exec (.writeStatus v) s = .next { s with
      req := ⟨0x5, v, []⟩, seqPc := 4 + 8 * (s.cfg.kCmd + 1) + 8 * (s.cfg.kWrite + 1), txsr := v
      bitcnt := 8, kcnt := 0, control := 1, data := if v.getLsbD 7 then 7 else 5, direction := 7
      trace := s.trace ++ wakeEvents s.cfg ++ commandEvents s.cfg 0x62 ++ byteEvents s.cfg v
      delivered := s.delivered ++ [⟨⟨0x5, v, []⟩, .done⟩] } := by
  rw [exec, execWriteStatus, call_idle _ _ _ hs, writeStatusProgram, runPrims_transaction _ _ _ _ rfl, runPrims_byteOut]
  · simp [State.complete, State.accept, commitValue_eq, hs]
  · rfl

/-- WRITE_DATETIME once its range check has passed (R133). -/
theorem writeDatetime_idle (mode12 pm : Bool) {f : DateTimeFields} {s : State} (hs : s.seqState = .idle)
    (hf : ∀ v ∈ f.toList, v.toNat ≤ 99) :
    exec (.writeDatetime mode12 pm f) s = .next { s with
      req := ⟨0x6, dateTimeImm mode12 pm, f.toList⟩, seqPc := 4 + 8 * (s.cfg.kCmd + 1) + 56 * (s.cfg.kWrite + 1)
      txsr := bcdByte f.second, bitcnt := 8, kcnt := 0, control := 1
      data := if (bcdByte f.second).getLsbD 7 then 7 else 5, direction := 7
      trace := s.trace ++ wakeEvents s.cfg ++ commandEvents s.cfg 0x64 ++
        (dateBytes mode12 pm f).flatMap (byteEvents s.cfg)
      delivered := s.delivered ++ [⟨⟨0x6, dateTimeImm mode12 pm, f.toList⟩, .done⟩] } := by
  have hfault : dateTimeFault f = none := by rw [dateTimeFault, firstOutOfRange_none _ _ hf]
  rw [exec, execWriteDatetime, call_idle _ _ _ hs, hfault]
  simp only
  rw [writeDatetimeProgram, runPrims_transaction _ _ _ _ rfl, runPrims_bytesOut]
  · simp [State.complete, State.accept, commitValue_eq, dateBytes, hs]
    omega
  · rfl

theorem stickyFault_eq_getD (old : Option FaultMark) (m : FaultMark) : stickyFault old m = some (old.getD m) := by
  cases old <;> rfl

/-- WRITE_DATETIME with a field above 99 (R133, R204, R205): the fault of the first such field, before any event. -/
theorem writeDatetime_idle_outOfRange (mode12 pm : Bool) {f : DateTimeFields} {s : State} (hs : s.seqState = .idle)
    {j : Nat} {v : Byte} (hj : f.toList[j]? = some v) (hv : 99 < v.toNat)
    (hfirst : ∀ k < j, ∀ u, f.toList[k]? = some u → u.toNat ≤ 99) :
    exec (.writeDatetime mode12 pm f) s = .next { s with
      req := ⟨0x6, dateTimeImm mode12 pm, f.toList⟩, seqPc := 0
      fault := some (s.fault.getD ⟨.bcdRange, 0x6, v, some j⟩)
      delivered := s.delivered ++
        [⟨⟨0x6, dateTimeImm mode12 pm, f.toList⟩, .fault ⟨.bcdRange, 0x6, v, some j⟩⟩] } := by
  have hfault : dateTimeFault f = some ⟨.bcdRange, 0x6, v, some j⟩ := by
    rw [dateTimeFault, firstOutOfRange_some _ 0 j v hj hv hfirst, Nat.zero_add]
  rw [exec, execWriteDatetime, call_idle _ _ _ hs, hfault]
  simp [State.raiseFault, State.accept, stickyFault_eq_getD, hs]

/-- RESET_CHIP (R135). -/
theorem resetChip_idle {s : State} (hs : s.seqState = .idle) :
    exec .resetChip s = .next { s with
      req := ⟨0x7, 0, []⟩, seqPc := 4 + 8 * (s.cfg.kCmd + 1) + 1, txsr := 0x61, bitcnt := 8, kcnt := 0
      control := 1, data := 4, direction := 7
      trace := s.trace ++ wakeEvents s.cfg ++ commandEvents s.cfg 0x61 ++ [dataWr s.cfg 4]
      delivered := s.delivered ++ [⟨⟨0x7, 0, []⟩, .done⟩] } := by
  rw [exec, execResetChip, call_idle _ _ _ hs, resetChipProgram, runPrims_transaction _ _ _ _ rfl]
  simp [State.complete, State.accept, runPrims, Prim.run, Setup.apply, Access.run, State.portWrite, State.setPort,
    State.emit, portAddr, Config.portW, dataWr, knockValue, lineP1, hs]

/-! ## How many events each building block has (R112) -/

@[simp] theorem writeSlotEvents_length (c : Config) (k : Nat) (b : Bool) : (writeSlotEvents c k b).length = k + 1 := by
  simp [writeSlotEvents]

@[simp] theorem commandEvents_length (c : Config) (v : Byte) : (commandEvents c v).length = 8 * (c.kCmd + 1) := by
  simp [commandEvents]
  omega

@[simp] theorem byteEvents_length (c : Config) (v : Byte) : (byteEvents c v).length = 8 * (c.kWrite + 1) := by
  simp [byteEvents]
  omega

@[simp] theorem readEvents_length (c : Config) (rs : List Word) :
    (readEvents c rs).length = rs.length * (c.kRead + 2) := by
  simp [readEvents, readSlotEvents]

@[simp] theorem wakeEvents_length (c : Config) : (wakeEvents c).length = 4 := rfl

/-! ## The statements -/

/-- Settles O21: the encoding of READ_STATUS is `0x4000`, and the transaction with the shift-in is its whole next state. -/
theorem readStatusTransaction : Obligations.ReadStatusTransaction := by
  refine ⟨decode_encode .readStatus rfl, fun s hs => ?_⟩
  obtain ⟨rs, hlen, hexec⟩ := readStatus_idle hs
  exact ⟨rs, 8, 0, _, _, hlen, by decide, by decide, hexec⟩

/-- Settles O22: the encoding of WRITE_STATUS is `0x50vv`, and the transaction with one shift-out is its whole next state. -/
theorem writeStatusTransaction : Obligations.WriteStatusTransaction :=
  fun v _ => ⟨decode_encode (.writeStatus v) rfl, fun hs => ⟨8, 0, by decide, by decide, writeStatus_idle v hs⟩⟩

/-- Settles O23: the statement's `imm`, `fs` and `bcd` are the encoding's immediate, its field bytes and the BCD codec's byte;
then the range check decides between the transaction with seven shift-outs and the fault. -/
theorem writeDatetimeTransaction : Obligations.WriteDatetimeTransaction := by
  intro mode12 pm f imm fs s bcd himm hfs hbcd
  obtain rfl : imm = dateTimeImm mode12 pm := himm.trans (dateTimeImm_eq mode12 pm).symm
  obtain rfl : fs = f.toList := hfs
  obtain rfl : bcd = bcdByte := funext fun n => (hbcd n).trans (bcdByte_eq n).symm
  refine ⟨decode_encode (.writeDatetime mode12 pm f) rfl, fun hs hf => ⟨8, 0, by decide, by decide, ?_⟩,
    fun hs j v hj hv hfirst => writeDatetime_idle_outOfRange mode12 pm hs hj hv hfirst⟩
  rw [writeDatetime_idle mode12 pm hs hf]
  simp only [dateBytes, hourByte, Bool.and_eq_true]

/-- Settles O24: the encoding of RESET_CHIP is `0x7000`, and the transaction with one knock is its whole next state. -/
theorem resetChipTransaction : Obligations.ResetChipTransaction :=
  ⟨decode_encode .resetChip rfl, fun _ hs => ⟨8, 0, by decide, by decide, resetChip_idle hs⟩⟩

/-- Settles O25: each formula is the length of the trace that the transaction appends, added up over its building blocks. -/
theorem transactionEventCounts : Obligations.TransactionEventCounts := by
  intro s hs
  obtain ⟨rs, hlen, hread⟩ := readStatus_idle hs
  refine ⟨⟨_, hread, ?_⟩, fun v => ⟨_, writeStatus_idle v hs, ?_⟩,
    fun mode12 pm f hf => ⟨_, writeDatetime_idle mode12 pm hs hf, ?_⟩, ⟨_, resetChip_idle hs, ?_⟩⟩
  · simp [hlen]
    omega
  · simp
    omega
  · simp [dateBytes]
    omega
  · simp
    omega

end Sys2Proof.Proofs.Transactions
end

section
/-!
The BCD operations (42_bcd.md). Both codec functions as functions of the two decimal digits, and the next state of each
operation as one equation for each outcome.
-/

namespace Sys2Proof.Proofs.Bcd

open Sys2Proof.Machine Sys2Proof.Laws Sys2Proof.Proofs.Encoding Sys2Proof.Proofs.Transactions

/-! ## The codec functions (R151, R152) -/

theorem toBcdFn_eq (n : Byte) :
    toBcdFn n = if 99 < n.toNat then none else some (BitVec.ofNat 8 (16 * (n.toNat / 10) + n.toNat % 10)) := by
  rw [toBcdFn, bcdByte_eq]

theorem fromBcdFn_eq (b : Byte) :
    fromBcdFn b = if 9 < b.toNat / 16 ∨ 9 < b.toNat % 16 then none
      else some (BitVec.ofNat 8 (b.toNat / 16 * 10 + b.toNat % 16)) := by
  rw [fromBcdFn, highNibble_eq, lowNibble_eq]

/-- The number that two decimal digits spell is encoded as those two digits. -/
theorem toBcdFn_digits {t u : Nat} (ht : t ≤ 9) (hu : u ≤ 9) :
    toBcdFn (BitVec.ofNat 8 (t * 10 + u)) = some (BitVec.ofNat 8 (16 * t + u)) := by
  have hn : (BitVec.ofNat 8 (t * 10 + u)).toNat = t * 10 + u := by
    rw [BitVec.toNat_ofNat]
    omega
  rw [toBcdFn_eq, hn, if_neg (by omega), show (t * 10 + u) / 10 = t by omega, show (t * 10 + u) % 10 = u by omega]

theorem digitsByte_toNat {t u : Nat} (ht : t ≤ 9) (hu : u ≤ 9) : (BitVec.ofNat 8 (16 * t + u)).toNat = 16 * t + u := by
  rw [BitVec.toNat_ofNat]
  omega

/-- The byte of two decimal digits is decoded to the number that they spell. -/
theorem fromBcdFn_digits {t u : Nat} (ht : t ≤ 9) (hu : u ≤ 9) :
    fromBcdFn (BitVec.ofNat 8 (16 * t + u)) = some (BitVec.ofNat 8 (t * 10 + u)) := by
  rw [fromBcdFn_eq, digitsByte_toNat ht hu, show (16 * t + u) / 16 = t by omega,
    show (16 * t + u) % 16 = u by omega, if_neg (by omega)]

theorem fromBcdFn_toBcdFn {n : Byte} (hn : n.toNat ≤ 99) : (toBcdFn n).bind fromBcdFn = some n := by
  rw [toBcdFn_eq, if_neg (by omega), Option.bind_some, fromBcdFn_digits (by omega) (by omega), Nat.div_add_mod',
    BitVec.ofNat_toNat, BitVec.setWidth_eq]

theorem toBcdFn_fromBcdFn {b : Byte} (ht : b.toNat / 16 ≤ 9) (hu : b.toNat % 16 ≤ 9) :
    (fromBcdFn b).bind toBcdFn = some b := by
  rw [fromBcdFn_eq, if_neg (by omega), Option.bind_some, toBcdFn_digits ht hu, Nat.div_add_mod,
    BitVec.ofNat_toNat, BitVec.setWidth_eq]

/-- The left inverse makes the encoder injective. -/
theorem toBcdFn_injective {n m : Byte} (hn : n.toNat ≤ 99) (hm : m.toNat ≤ 99) (h : toBcdFn n = toBcdFn m) : n = m := by
  have hbind : some n = some m := by rw [← fromBcdFn_toBcdFn hn, h, fromBcdFn_toBcdFn hm]
  exact Option.some.inj hbind

/-- Every encoded byte has two decimal digits; conversely the decoder gives such a byte its number. -/
theorem toBcdFn_image (b : Byte) : (∃ n, toBcdFn n = some b) ↔ b.toNat / 16 ≤ 9 ∧ b.toNat % 16 ≤ 9 := by
  constructor
  · rintro ⟨n, h⟩
    rw [toBcdFn_eq] at h
    split at h
    · cases h
    · obtain rfl := Option.some.inj h
      rw [digitsByte_toNat (by omega) (by omega)]
      omega
  · rintro ⟨ht, hu⟩
    obtain ⟨n, -, hn⟩ := Option.bind_eq_some_iff.1 (toBcdFn_fromBcdFn ht hu)
    exact ⟨n, hn⟩

/-! ## The next state of each operation (R151, R152, R33) -/

theorem toBcd_idle {n : Byte} {s : State} (hs : s.seqState = .idle) (hn : n.toNat ≤ 99) :
    exec (.toBcd n) s = .next { s with
      req := ⟨0x8, n, []⟩, seqPc := 0, result := .byte (BitVec.ofNat 8 (16 * (n.toNat / 10) + n.toNat % 10))
      delivered := s.delivered ++
        [⟨⟨0x8, n, []⟩, .result (.byte (BitVec.ofNat 8 (16 * (n.toNat / 10) + n.toNat % 10)))⟩] } := by
  have hfault : toBcdFault n = none := if_neg (by omega)
  rw [exec, execToBcd, call_idle _ _ _ hs, hfault, toBcdFn_eq, if_neg (by omega)]
  simp [State.complete, State.accept, hs]

theorem toBcd_idle_outOfRange {n : Byte} {s : State} (hs : s.seqState = .idle) (hn : 99 < n.toNat) :
    exec (.toBcd n) s = .next { s with
      req := ⟨0x8, n, []⟩, seqPc := 0, fault := some (s.fault.getD ⟨.bcdRange, 0x8, n, none⟩)
      delivered := s.delivered ++ [⟨⟨0x8, n, []⟩, .fault ⟨.bcdRange, 0x8, n, none⟩⟩] } := by
  have hfault : toBcdFault n = some ⟨.bcdRange, 0x8, n, none⟩ := if_pos hn
  rw [exec, execToBcd, call_idle _ _ _ hs, hfault]
  simp [State.raiseFault, State.accept, stickyFault_eq_getD, hs]

theorem fromBcd_idle {b : Byte} {s : State} (hs : s.seqState = .idle) (ht : b.toNat / 16 ≤ 9) (hu : b.toNat % 16 ≤ 9) :
    exec (.fromBcd b) s = .next { s with
      req := ⟨0x9, b, []⟩, seqPc := 0, result := .byte (BitVec.ofNat 8 (b.toNat / 16 * 10 + b.toNat % 16))
      delivered := s.delivered ++
        [⟨⟨0x9, b, []⟩, .result (.byte (BitVec.ofNat 8 (b.toNat / 16 * 10 + b.toNat % 16)))⟩] } := by
  have hvalue : fromBcdFn b = some (BitVec.ofNat 8 (b.toNat / 16 * 10 + b.toNat % 16)) := by
    rw [fromBcdFn_eq, if_neg (by omega)]
  rw [exec, execFromBcd, call_idle _ _ _ hs, fromBcdFault, hvalue]
  simp [State.complete, State.accept, hs]

theorem fromBcd_idle_badDigit {b : Byte} {s : State} (hs : s.seqState = .idle)
    (hb : 9 < b.toNat / 16 ∨ 9 < b.toNat % 16) :
    exec (.fromBcd b) s = .next { s with
      req := ⟨0x9, b, []⟩, seqPc := 0, fault := some (s.fault.getD ⟨.bcdDigit, 0x9, b, none⟩)
      delivered := s.delivered ++ [⟨⟨0x9, b, []⟩, .fault ⟨.bcdDigit, 0x9, b, none⟩⟩] } := by
  have hvalue : fromBcdFn b = none := by rw [fromBcdFn_eq, if_pos hb]
  rw [exec, execFromBcd, call_idle _ _ _ hs, fromBcdFault, hvalue]
  simp [State.raiseFault, State.accept, stickyFault_eq_getD, hs]

/-! ## The statements -/

/-- Settles O27: the encoding of TO_BCD is `0x80nn`, and the range check decides between the two digits and the fault. -/
theorem toBcdEncodesOrFaults : Obligations.ToBcdEncodesOrFaults :=
  fun n _ => ⟨decode_encode (.toBcd n) rfl, toBcd_idle, toBcd_idle_outOfRange⟩

/-- Settles O28: the encoding of FROM_BCD is `0x90bb`, and the two digits decide between the number and the fault. -/
theorem fromBcdDecodesOrFaults : Obligations.FromBcdDecodesOrFaults :=
  fun b _ => ⟨decode_encode (.fromBcd b) rfl, fromBcd_idle, fromBcd_idle_badDigit⟩

/-- Settles O29: both inverses from the codec on two digits, the injectivity and the image from the inverses. -/
theorem bcdRoundTrips : Obligations.BcdRoundTrips :=
  ⟨fun _ => fromBcdFn_toBcdFn, fun _ => toBcdFn_fromBcdFn, fun _ _ => toBcdFn_injective, toBcdFn_image⟩

end Sys2Proof.Proofs.Bcd
end

section
/-!
DETECT's interrupt bracket, one event a step (43_alias_detector.md R171, R175). Its pin program clears `IE` at position 1 and
restores it at its epilogue; no primitive between the two sets `IE`, and a match jumps no further than the epilogue.
-/

namespace Sys2Proof.Proofs.InterruptBracket

open Sys2Proof.Machine Sys2Proof.Safety Sys2Proof.Laws Sys2Proof.Proofs.StateRules

/-- The primitives that leave `IE` as it is: all but the two accesses that set it. -/
def leavesIe (p : Prim) : Bool :=
  match p.access with
  | .ieClear | .ieRestore => false
  | _ => true

theorem prim_run_ie {p : Prim} (h : leavesIe p = true) (s : State) : (p.run s).ie = s.ie := by
  obtain ⟨u, a⟩ := p
  have hu : (u.apply s).ie = s.ie := by cases u <;> rfl
  cases a with
  | ieClear | ieRestore => cases h
  | probe q exits =>
    simp only [Prim.run, Access.run, exitOnMatch]
    split <;> exact hu
  | port _ _ | txKnock _ _ | txCommit _ _ | rxKnock _ | rxCommit => exact (State.portWrite_ie ..).trans hu
  | _ => exact hu

theorem leavesIe_withSetup (u : Setup) {ps : List Prim} (h : ∀ p ∈ ps, leavesIe p = true) :
    ∀ p ∈ withSetup u ps, leavesIe p = true := by
  cases ps with
  | nil => exact h
  | cons p ps => exact List.forall_mem_cons.2 (List.forall_mem_cons.1 h)

theorem leavesIe_probeProgram (c : Config) (p : Nat) (exits : Bool) : ∀ q ∈ probeProgram c p exits, leavesIe q = true := by
  intro q hq
  rcases List.mem_append.1 hq with hselect | hprobe
  · obtain ⟨w, -, rfl⟩ := List.mem_map.1 hselect
    rfl
  · obtain rfl := List.mem_singleton.1 hprobe
    rfl

theorem leavesIe_flashPrograms (c : Config) (i : Nat) (pages : List Nat) :
    ∀ q ∈ flashPrograms c i pages, leavesIe q = true := by
  induction pages generalizing i with
  | nil => exact List.forall_mem_nil _
  | cons p ps ih => exact List.forall_mem_append.2 ⟨leavesIe_withSetup _ (leavesIe_probeProgram c p true), ih (i + 1)⟩

/-- The part of DETECT between its clearing of `IE` and its epilogue: the reference read and the probes (R172). -/
def bracketed (c : Config) : List Prim :=
  { access := .readRef } ::
    (probeProgram c c.bootPage false ++ probeProgram c c.psramPage true ++ flashPrograms c 0 c.flashPages)

theorem leavesIe_bracketed (c : Config) : ∀ p ∈ bracketed c, leavesIe p = true :=
  List.forall_mem_cons.2 ⟨rfl, List.forall_mem_append.2 ⟨List.forall_mem_append.2
    ⟨leavesIe_probeProgram c c.bootPage false, leavesIe_probeProgram c c.psramPage true⟩, leavesIe_flashPrograms c 0 _⟩⟩

theorem detectBody_eq (c : Config) :
    detectBody c = { access := .ieSave } :: { access := .ieClear } :: bracketed c := by
  simp [detectBody, detectPrefix, bracketed]

/-- The primitive of DETECT at a position, and what the position says of it. -/
theorem detectProgram_at {c : Config} {k : Nat} {p : Prim} (h : (detectProgram c)[k]? = some p) :
    (k = 0 ∧ p = { access := .ieSave }) ∨ (k = 1 ∧ p = { access := .ieClear }) ∨
      (2 ≤ k ∧ k < detectExit c ∧ leavesIe p = true) ∨ (k = detectExit c ∧ p = { access := .ieRestore }) := by
  have hexit : detectExit c = (bracketed c).length + 2 := by rw [detectExit, detectBody_eq]; rfl
  rw [detectProgram, detectBody_eq] at h
  match k with
  | 0 => exact .inl ⟨rfl, (Option.some.inj h).symm⟩
  | 1 => exact .inr (.inl ⟨rfl, (Option.some.inj h).symm⟩)
  | k + 2 =>
    replace h : (bracketed c ++ [{ access := .ieRestore }])[k]? = some p := h
    by_cases hk : k < (bracketed c).length
    · rw [List.getElem?_append_left hk] at h
      exact .inr (.inr (.inl ⟨by omega, by omega, leavesIe_bracketed c p (List.mem_of_getElem? h)⟩))
    · rw [List.getElem?_append_right (by omega), List.getElem?_singleton] at h
      obtain ⟨hlast, hp⟩ := Option.ite_none_right_eq_some.1 h
      exact .inr (.inr (.inr ⟨by omega, (Option.some.inj hp).symm⟩))

theorem bracketHolds_of_idle {s : State} (h : s.seqState = .idle) : BracketHolds s := by
  intro hbusy
  cases h.symm.trans hbusy

/-- One primitive of DETECT keeps the bracket: at its two ends `SEQ_PC` is not inside it, its entry clears `IE`, and what
stands between leaves `IE` alone wherever it moves `SEQ_PC`. -/
theorem detect_prim_keeps_bracket {s : State} {p : Prim} (hp : (detectProgram s.cfg)[s.seqPc]? = some p)
    (hs : 2 ≤ s.seqPc → s.seqPc ≤ detectExit s.cfg → s.ie = false) :
    2 ≤ (p.run s).seqPc → (p.run s).seqPc ≤ detectExit s.cfg → (p.run s).ie = false := by
  intro hlo hhi
  obtain ⟨hk, rfl⟩ | ⟨-, rfl⟩ | ⟨h2, hlt, hie⟩ | ⟨hk, rfl⟩ := detectProgram_at hp
  · rw [straight_seqPc _ _ rfl] at hlo
    omega
  · rfl
  · rw [prim_run_ie hie]
    exact hs h2 hlt.le
  · rw [straight_seqPc _ _ rfl] at hhi
    omega

/-- A step of the operation in progress keeps the bracket: it ends Idle or runs the primitive at `SEQ_PC`. -/
theorem advance_keeps_bracket {s : State} (hs : BracketHolds s) (hbusy : s.seqState = .busy) :
    BracketHolds (advance s.req.instr s) := by
  unfold advance
  split
  · exact bracketHolds_of_idle rfl
  · split
    · rename_i p hp
      obtain ⟨-, hreq, -⟩ := prim_run_frame p s
      intro _ hdetect
      rw [hreq] at hdetect
      rw [hdetect] at hp
      rw [prim_run_cfg]
      exact detect_prim_keeps_bracket hp (hs hbusy hdetect)
    · exact bracketHolds_of_idle rfl

/-- Settles O51: by the cases of a step; an operation starts at position 0, outside the bracket, and only a step of the operation
in progress ends inside it. -/
theorem stepKeepsInterruptBracket : Obligations.StepKeepsInterruptBracket := by
  intro s t hs h
  obtain ⟨-, -, rfl⟩ | ⟨p, rest, hidle, -, hexec⟩ | ⟨p, rest, hidle, -, rfl⟩ | ⟨b, rest, hidle, -, rfl⟩ |
    ⟨n, rest, -, -, rfl⟩ | ⟨hbusy, -, rfl⟩ := step_cases h
  · exact hs
  · obtain ⟨u, hu, huidle⟩ := exec_idle (decode p) { s with inbox := rest } hidle
    obtain rfl : u = t := Host.Outcome.next.inj (hu.symm.trans hexec)
    exact bracketHolds_of_idle huidle
  · unfold State.acceptStep
    split
    · exact fun _ _ h2 => absurd h2 (Nat.not_succ_le_zero 1)
    · exact bracketHolds_of_idle hidle
  · exact bracketHolds_of_idle hidle
  · exact bracketHolds_of_idle rfl
  · exact advance_keeps_bracket hs hbusy

end Sys2Proof.Proofs.InterruptBracket
end

section
/-!
DETECT as a whole operation (43_alias_detector.md R171 to R176, R178). Its next state is one equation over a reference and the
values of the probes performed, of which `ProbedUntilMatch` says where the probing ends; every statement about DETECT is
read off the equation.
-/

namespace Sys2Proof.Proofs.Detector

open Sys2Proof.Machine Sys2Proof.Safety Sys2Proof.Laws Sys2Proof.Proofs.Encoding

/-! ## Where the probing ends (R172 to R174) -/

theorem probedPages_length (c : Config) : (probedPages c).length = 2 + c.flashPages.length :=
  Nat.add_comm c.flashPages.length 2

/-- The values of the probes performed, against the reference: at least the bootloader's and the PSRAM's, at most one for
each page, none between the first and the last a match, and one for every page where the last is none. -/
structure ProbedUntilMatch (c : Config) (ref : Byte) (vs : List Byte) : Prop where
  two_le : 2 ≤ vs.length
  length_le : vs.length ≤ 2 + c.flashPages.length
  no_earlier : ∀ k, 1 ≤ k → k + 1 < vs.length → vs[k]? ≠ some ref
  all_probed : vs.getLast? ≠ some ref → vs.length = 2 + c.flashPages.length

namespace ProbedUntilMatch

variable {c : Config} {ref : Byte} {vs : List Byte}

/-- A match other than the bootloader's is the last probe. -/
theorem last_of_match (h : ProbedUntilMatch c ref vs) {k : Nat} (hk : 1 ≤ k) (hv : vs[k]? = some ref) :
    k + 1 = vs.length := by
  obtain ⟨hlt, -⟩ := List.getElem?_eq_some_iff.1 hv
  by_contra hne
  exact h.no_earlier k hk (by omega) hv

/-- The last probe matches exactly where some probe other than the bootloader's does (R174). -/
theorem getLast?_eq_ref_iff (h : ProbedUntilMatch c ref vs) :
    vs.getLast? = some ref ↔ ∃ k, 1 ≤ k ∧ vs[k]? = some ref := by
  have h2 := h.two_le
  rw [List.getLast?_eq_getElem?]
  constructor
  · exact fun hlast => ⟨vs.length - 1, by omega, hlast⟩
  · rintro ⟨k, hk, hv⟩
    rwa [← h.last_of_match hk hv, Nat.add_sub_cancel]

end ProbedUntilMatch

/-! ## The next state of DETECT (R171 to R173, R175) -/

/-- DETECT's next state from `s` where the reference reads `ref` and the probes performed answer `vs`. -/
def detected (s : State) (ref : Byte) (vs : List Byte) : State :=
  { s with
    req := ⟨0xA, 0, []⟩, seqPc := detectExit s.cfg + 1, refSum := ref, matched := vs.getLast? == some ref, ieSaved := s.ie
    pageIdx := if vs.length = 2 then s.pageIdx else vs.length - 3
    page := lastCommanded s.cfg s.page ((probedPages s.cfg).take vs.length)
    mem := writeAll s.mem (((probedPages s.cfg).take vs.length).flatMap s.cfg.pageSeq)
    trace := s.trace ++ detectEvents s.cfg s.ie ref vs
    result := .flag (vs.getLast? == some ref), answers := s.answers.drop (1 + vs.length)
    draws := s.draws + (1 + vs.length)
    delivered := s.delivered ++ [⟨⟨0xA, 0, []⟩, .result (.flag (vs.getLast? == some ref))⟩] }

/-- DETECT as a whole operation: the reference and the probed values are the oracle's next answers. -/
theorem detect_idle {s : State} (hs : s.seqState = .idle) :
    ∃ (ref : Byte) (vs : List Byte), ProbedUntilMatch s.cfg ref vs ∧
      (s.answers.take (1 + vs.length)).map (BitVec.setWidth 8) <+: ref :: vs ∧
      exec .detect s = .next (detected s ref vs) := by
  obtain ⟨ref, href, hprefix⟩ := runPrims_detectPrefix (s.accept ⟨0xA, 0, []⟩)
  obtain ⟨vs, h2, hlen, hanswers, hstop, hall, hprobes⟩ :=
    probeClasses_run (runPrims detectPrefix (s.accept ⟨0xA, 0, []⟩))
  simp only [hprefix, State.accept_cfg, State.accept_answers, probedPages_length] at href hlen hanswers hstop hall
  refine ⟨ref, vs, ⟨h2, hlen, hstop, hall⟩, ?_, ?_⟩
  · rw [List.map_take]
    exact cons_follows _ _ _ _ (by simpa using href) (by simpa using hanswers)
  · rw [exec, execDetect, call_idle _ _ _ hs, runDetect, hprobes, hprefix]
    simp [completeDetect, State.complete, State.ieSet, State.emit, State.accept, detected, detectEvents, detectExit_eq, hs]
    omega

theorem detected_result_true_iff (s : State) (ref : Byte) (vs : List Byte) :
    (detected s ref vs).result = .flag true ↔ vs.getLast? = some ref := by
  simp [detected]

theorem detected_result_false_iff (s : State) (ref : Byte) (vs : List Byte) :
    (detected s ref vs).result = .flag false ↔ vs.getLast? ≠ some ref := by
  simp [detected]

theorem detected_result_flag (s : State) (ref : Byte) (vs : List Byte) :
    (detected s ref vs).result = .flag true ∨ (detected s ref vs).result = .flag false := by
  rw [detected_result_true_iff, detected_result_false_iff]
  exact Decidable.em _

/-! ## The events of DETECT (R175, R176) -/

/-- Between the clearing of `IE` and its restoring stand bus accesses alone: the reference read, and page writes and reads. -/
theorem detectEvents_bracket (c : Config) (ie : Bool) (ref : Byte) (vs : List Byte) :
    ∃ mid, detectEvents c ie ref vs = [.ieRd ie, .ieWr false] ++ mid ++ [.ieWr ie] ∧
      ∀ e ∈ mid, ∀ b, e ≠ .ieWr b ∧ e ≠ .ieRd b := by
  refine ⟨.rd c.checksumAddr 1 ref.toNat :: ((probedPages c).zip vs).flatMap fun pv => probeEvents c pv.1 pv.2,
    by simp [detectEvents], List.forall_mem_cons.2 ⟨fun _ => ⟨nofun, nofun⟩, fun e he b => ?_⟩⟩
  obtain ⟨⟨p, v⟩, -, hprobe⟩ := List.mem_flatMap.1 he
  rcases List.mem_append.1 hprobe with hwrite | hread
  · obtain ⟨w, -, rfl⟩ := List.mem_map.1 hwrite
    exact ⟨nofun, nofun⟩
  · obtain rfl := List.mem_singleton.1 hread
    exact ⟨nofun, nofun⟩

theorem probeEvents_length (c : Config) (p : Nat) (v : Byte) :
    (probeEvents c p v).length = (c.pageSeq p).length + 1 := by
  simp [probeEvents, pageEvents]

/-- Each page probed has the writes of its sequence and one read. -/
theorem probes_length (c : Config) (pages : List Nat) (vs : List Byte) (h : vs.length ≤ pages.length) :
    ((pages.zip vs).flatMap fun pv => probeEvents c pv.1 pv.2).length =
      ((pages.take vs.length).map fun p => (c.pageSeq p).length + 1).sum := by
  induction vs generalizing pages with
  | nil => simp
  | cons v vs ih =>
    cases pages with
    | nil => cases h
    | cons p ps => simp [probeEvents_length, ih ps (Nat.le_of_succ_le_succ h)]

theorem detectEvents_length (c : Config) (ie : Bool) (ref : Byte) (vs : List Byte)
    (h : vs.length ≤ (probedPages c).length) :
    (detectEvents c ie ref vs).length =
      3 + (((probedPages c).take vs.length).map fun p => (c.pageSeq p).length + 1).sum + 1 := by
  simp only [detectEvents, List.length_append, probes_length c _ vs h]
  rfl

/-- With no sequence longer than `L`, the probes of any first pages have at most `L + 1` events for each page. -/
theorem probes_length_le (c : Config) (n L : Nat) (hL : ∀ p ∈ probedPages c, (c.pageSeq p).length ≤ L) :
    (((probedPages c).take n).map fun p => (c.pageSeq p).length + 1).sum ≤ (c.flashPages.length + 2) * (L + 1) := by
  have hsum := List.sum_le_card_nsmul (((probedPages c).take n).map fun p => (c.pageSeq p).length + 1) (L + 1)
    (List.forall_mem_map.2 fun p hp => Nat.succ_le_succ (hL p (List.mem_of_mem_take hp)))
  rw [List.length_map, smul_eq_mul] at hsum
  refine hsum.trans (Nat.mul_le_mul_right _ ?_)
  rw [Nat.add_comm, ← probedPages_length]
  exact List.length_take_le' n _

/-! ## The page DETECT leaves (R178) -/

/-- Where every sequence has writes, the page last commanded is the page last selected. -/
theorem lastCommanded_take (c : Config) (old : Nat) (pages : List Nat) {n : Nat} (h1 : 1 ≤ n) (hn : n ≤ pages.length)
    (hne : ∀ p ∈ pages, c.pageSeq p ≠ []) : pages[n - 1]? = some (lastCommanded c old (pages.take n)) := by
  have hall : (pages.take n).filter (fun p => !(c.pageSeq p).isEmpty) = pages.take n :=
    List.filter_eq_self.2 fun p hp => by simpa using hne p (List.mem_of_mem_take hp)
  have hlast : (pages.take n).getLast? = pages[n - 1]? := by
    rw [List.getLast?_eq_getElem?, List.length_take_of_le hn, List.getElem?_take_of_lt (by omega)]
  rw [lastCommanded, hall, hlast, List.getElem?_eq_getElem (by omega), Option.getD_some]

theorem probedPages_last (c : Config) :
    (probedPages c)[2 + c.flashPages.length - 1]? = some (c.flashPages.getLast?.getD c.psramPage) := by
  rw [← probedPages_length, ← List.getLast?_eq_getElem?, probedPages, List.getLast?_cons_cons, List.getLast?_cons]

/-! ## Both results (R40, R172) -/

/-- Where the reference's answer is `x` and every probe's is `y`, DETECT's result is whether their low bytes are equal. -/
theorem detect_constant_answers {s : State} (hs : s.seqState = .idle) (x y : Word) :
    ∃ t, exec .detect { s with answers := x :: List.replicate (2 + s.cfg.flashPages.length) y } = .next t ∧
      t.result = .flag (y.setWidth 8 == x.setWidth 8) := by
  obtain ⟨ref, vs, hprobed, hanswers, hexec⟩ :=
    detect_idle (s := { s with answers := x :: List.replicate (2 + s.cfg.flashPages.length) y }) hs
  have hlen : vs.length ≤ 2 + s.cfg.flashPages.length := hprobed.length_le
  have h2 := hprobed.two_le
  have heq := hanswers.eq_of_length (by simp; omega)
  rw [Nat.add_comm, List.take_succ_cons, List.take_replicate, Nat.min_eq_left hlen, List.map_cons, List.map_replicate,
    List.cons.injEq] at heq
  obtain ⟨rfl, hvs⟩ := heq
  have hlast : vs.getLast? = some (y.setWidth 8) := by
    rw [← hvs, List.getLast?_replicate, if_neg (by omega)]
  exact ⟨_, hexec, by rw [detected, hlast, Option.some_beq_some]⟩

/-! ## The statements -/

/-- Settles O30: the encoding of DETECT is `0xA000`, and the next state is `detected`. -/
theorem detectProbesUntilFirstMatch : Obligations.DetectProbesUntilFirstMatch := by
  refine ⟨decode_encode .detect rfl, fun s hs => ?_⟩
  obtain ⟨ref, vs, hprobed, hanswers, hexec⟩ := detect_idle hs
  exact ⟨ref, vs, vs.getLast? == some ref, hprobed.two_le, hprobed.length_le, hanswers, hprobed.no_earlier, beq_iff_eq,
    fun hfalse => hprobed.all_probed (beq_eq_false_iff_ne.1 hfalse), hexec⟩

/-- Settles O31: the result says whether the last probe matched, and a match other than the bootloader's is the last probe. -/
theorem detectResultLaw : Obligations.DetectResultLaw := by
  intro s hs
  obtain ⟨ref, vs, hprobed, -, hexec⟩ := detect_idle hs
  refine ⟨_, ref, vs, hexec, rfl, hprobed.two_le, hprobed.length_le, detected_result_flag s ref vs, ?_,
    fun _ k => hprobed.last_of_match, ?_⟩
  · rw [detected_result_true_iff, hprobed.getLast?_eq_ref_iff]
  · rw [detected_result_false_iff]
    exact hprobed.all_probed

/-- Settles O32: the events between the bracket's two ends are bus accesses. -/
theorem detectRestoresInterruptEnable : Obligations.DetectRestoresInterruptEnable := by
  intro s hs
  obtain ⟨ref, vs, -, -, hexec⟩ := detect_idle hs
  obtain ⟨mid, hevents, hmid⟩ := detectEvents_bracket s.cfg s.ie ref vs
  exact ⟨_, mid, hexec, rfl, by simp [detected, hevents], hmid⟩

/-- Settles O33: the count is the length of the events, and each probed page has at most `L + 1` of them. -/
theorem detectEventCounts : Obligations.DetectEventCounts := by
  intro s hs
  obtain ⟨ref, vs, hprobed, -, hexec⟩ := detect_idle hs
  have hcount : (detected s ref vs).trace.length = s.trace.length +
      (3 + (((probedPages s.cfg).take vs.length).map fun p => (s.cfg.pageSeq p).length + 1).sum + 1) := by
    rw [detected, List.length_append,
      detectEvents_length _ _ _ _ (hprobed.length_le.trans_eq (probedPages_length s.cfg).symm)]
  refine ⟨_, ref, vs, hexec, rfl, hprobed.two_le, hprobed.length_le, detected_result_flag s ref vs,
    (detected_result_true_iff s ref vs).1, fun h => hprobed.all_probed ((detected_result_false_iff s ref vs).1 h), hcount,
    fun L hL => ?_⟩
  have hbound := probes_length_le s.cfg vs.length L hL
  omega

/-- Settles O34: every answer 0 gives a match at the PSRAM page; 0 for the reference and 1 for every probe gives none. -/
theorem detectBothResultsPossible : Obligations.DetectBothResultsPossible :=
  fun _ hs => ⟨⟨_, detect_constant_answers hs 0 0⟩, ⟨_, detect_constant_answers hs 0 1⟩⟩

/-- Settles O35: the page commanded is that of the last probe, and without a match that is the last page of all. -/
theorem detectLeavesLastSelectedPage : Obligations.DetectLeavesLastSelectedPage := by
  intro s hs hne
  obtain ⟨ref, vs, hprobed, -, hexec⟩ := detect_idle hs
  have h2 := hprobed.two_le
  have hpage : (probedPages s.cfg)[vs.length - 1]? = some (detected s ref vs).page :=
    lastCommanded_take s.cfg s.page _ (by omega) (hprobed.length_le.trans_eq (probedPages_length s.cfg).symm) hne
  refine ⟨_, ref, vs, hexec, rfl, h2, hpage, fun htrue => ?_, fun hfalse => ?_⟩
  · rw [← List.getLast?_eq_getElem?]
    exact (detected_result_true_iff s ref vs).1 htrue
  · rw [hprobed.all_probed ((detected_result_false_iff s ref vs).1 hfalse), probedPages_last] at hpage
    exact (Option.some.inj hpage).symm

end Sys2Proof.Proofs.Detector
end

section
/-!
ENABLE_ALT as a whole operation (43_alias_detector.md R177), what its register writes leave in memory (R52; log 11), and the
frame that it shares with DETECT. Its next state is one equation, as is DETECT's, and the statements are read off the two.
-/

namespace Sys2Proof.Proofs.AltMode

open Sys2Proof.Machine Sys2Proof.Safety Sys2Proof.Laws Sys2Proof.Proofs.StateRules Sys2Proof.Proofs.Encoding
  Sys2Proof.Proofs.Detector

/-! ## Reading memory after register writes (R52; log 11) -/

/-- A register write lays the byte of weight `256 ^ k` at offset `k`. -/
theorem memory_read_writeBytes_same (n : Nat) (m : List Host.Cell) (a v k : Nat) (hm : Memory.wf m = true) (hk : k < n) :
    Memory.read (Memory.writeBytes m a n v) (a + k) = BitVec.ofNat 8 (v / 256 ^ k) := by
  induction n generalizing m a v k with
  | zero => cases hk
  | succ n ih =>
    rw [Memory.writeBytes]
    cases k with
    | zero =>
      rw [Nat.pow_zero, Nat.div_one]
      exact (memory_read_writeBytes_other n _ (a + 1) _ a (.inl (Nat.lt_add_one a))).trans
        (memory_read_write_same m a _ hm)
    | succ k =>
      rw [Nat.add_comm k, ← Nat.add_assoc, ih _ _ _ _ (memory_wf_write m a _ hm) (Nat.lt_of_succ_lt_succ hk),
        Nat.div_div_eq_div_mul, Nat.pow_add, Nat.pow_one]

theorem memory_wf_writeAll (ws : List BusWrite) {m : List Host.Cell} (hm : Memory.wf m = true) :
    Memory.wf (writeAll m ws) = true := by
  induction ws generalizing m with
  | nil => exact hm
  | cons w ws ih => exact ih (memory_wf_writeBytes w.width m w.addr w.value hm)

/-- A byte to which none of the writes stores stands. -/
theorem memory_read_writeAll_other (ws : List BusWrite) (m : List Host.Cell) {a : Nat} (h : ∀ w ∈ ws, ¬stored w a) :
    Memory.read (writeAll m ws) a = Memory.read m a := by
  induction ws generalizing m with
  | nil => rfl
  | cons w ws ih =>
    obtain ⟨hw, hws⟩ := List.forall_mem_cons.1 h
    have hout : a < w.addr ∨ w.addr + w.width ≤ a := by
      unfold stored at hw
      omega
    exact (ih _ hws).trans (memory_read_writeBytes_other w.width m w.addr w.value a hout)

/-! ## The next state of ENABLE_ALT (R177) -/

/-- The register writes of ENABLE_ALT: the kernel page's twice, then `RTC_EN`. -/
def altWrites (c : Config) : List BusWrite := c.pageSeq c.kernelPage ++ c.pageSeq c.kernelPage ++ [c.rtcEn]

/-- ENABLE_ALT's next state from `s`. -/
def altEnabled (s : State) : State :=
  { s with
    req := ⟨0xB, 0, []⟩, seqPc := 2 * (s.cfg.pageSeq s.cfg.kernelPage).length + 1
    page := if s.cfg.pageSeq s.cfg.kernelPage = [] then s.page else s.cfg.kernelPage
    pagingMode := if s.cfg.pageSeq s.cfg.kernelPage = [] then s.pagingMode else .kernel
    passthrough := true, mem := writeAll s.mem (altWrites s.cfg)
    trace := s.trace ++ pageEvents s.cfg s.cfg.kernelPage ++ pageEvents s.cfg s.cfg.kernelPage ++
      [.wr s.cfg.rtcEn.addr s.cfg.rtcEn.width s.cfg.rtcEn.value]
    delivered := s.delivered ++ [⟨⟨0xB, 0, []⟩, .done⟩] }

/-- A second select of the same page repeats the writes and commands what the first did (R170, R177). -/
theorem runPrims_pageSelect_twice (c : Config) (p : Nat) (s : State) :
    runPrims (pageSelect c p true ++ pageSelect c p true) s =
      { s with
        page := if c.pageSeq p = [] then s.page else p
        pagingMode := if c.pageSeq p = [] then s.pagingMode else .kernel
        mem := writeAll s.mem (c.pageSeq p ++ c.pageSeq p)
        trace := s.trace ++ pageEvents c p ++ pageEvents c p
        seqPc := s.seqPc + 2 * (c.pageSeq p).length } := by
  rw [runPrims_append, runPrims_pageSelect, runPrims_pageSelect]
  by_cases hseq : c.pageSeq p = []
  · simp [hseq, writeAll, pageEvents]
  · simp [hseq, writeAll_append]
    omega

theorem enableAlt_idle {s : State} (hs : s.seqState = .idle) : exec .enableAlt s = .next (altEnabled s) := by
  rw [exec, execEnableAlt, call_idle _ _ _ hs, enableAltProgram, runPrims_append, runPrims_pageSelect_twice]
  simp [runPrims, Prim.run, Setup.apply, Access.run, State.rtcEnable, State.memWrite, State.emit, State.complete,
    State.accept, altEnabled, altWrites, writeAll, hs]
  exact ⟨rfl, rfl⟩

/-! ## The next state wherever there is one (R22, R206) -/

theorem idle_of_exec_next {i : Instr} {s t : State} (h : exec i s = .next t) : s.seqState = .idle := by
  cases hs : s.seqState with
  | idle => rfl
  | busy =>
    rw [exec_busy i s hs] at h
    cases h

theorem enableAlt_next {s t : State} (h : exec .enableAlt s = .next t) : t = altEnabled s :=
  Host.Outcome.next.inj (h.symm.trans (enableAlt_idle (idle_of_exec_next h)))

theorem detect_next {s t : State} (h : exec .detect s = .next t) : ∃ ref vs, t = detected s ref vs := by
  obtain ⟨ref, vs, -, -, hexec⟩ := detect_idle (idle_of_exec_next h)
  exact ⟨ref, vs, Host.Outcome.next.inj (h.symm.trans hexec)⟩

/-! ## The statements -/

/-- Settles O36: the encoding of ENABLE_ALT is `0xB000`, and the next state is `altEnabled`. -/
theorem enableAltSelectsKernelPageTwice : Obligations.EnableAltSelectsKernelPageTwice :=
  ⟨decode_encode .enableAlt rfl, fun _ hs => ⟨_, _, _, _, enableAlt_idle hs⟩⟩

/-- Settles O37: the fields of `altEnabled`. -/
theorem enableAltCommandsKernelMode : Obligations.EnableAltCommandsKernelMode :=
  fun s hs => ⟨altEnabled s, enableAlt_idle hs, rfl, rfl, rfl, rfl⟩

/-- Settles O39: neither next state names the fields of the frame, and both write memory by register writes alone. -/
theorem detectorOperationsFrame : Obligations.DetectorOperationsFrame := by
  refine ⟨fun s t h => ?_, fun s t h => ?_, fun s t h => ?_⟩
  · rcases h with hdetect | halt
    · obtain ⟨ref, vs, rfl⟩ := detect_next hdetect
      simp only [detected, and_self]
    · obtain rfl := enableAlt_next halt
      simp only [altEnabled, and_self]
  · obtain ⟨ref, vs, rfl⟩ := detect_next h
    refine ⟨rfl, rfl, fun a ha => memory_read_writeAll_other _ _ fun w hw => ?_⟩
    obtain ⟨p, hp, hseq⟩ := List.mem_flatMap.1 hw
    exact ha p (List.mem_of_mem_take hp) w hseq
  · obtain rfl := enableAlt_next h
    refine ⟨rfl, rfl, rfl, rfl, rfl, rfl, rfl, fun a hkernel hrtc => memory_read_writeAll_other _ _ ?_⟩
    simp only [altWrites, List.forall_mem_append, List.forall_mem_singleton]
    exact ⟨⟨hkernel, hkernel⟩, hrtc⟩

/-- Settles O40: `RTC_EN` is the last write, and the memory before it is canonical. -/
theorem enableAltStoresRtcEnableValue : Obligations.EnableAltStoresRtcEnableValue := by
  intro s t hm h k hk
  obtain rfl := enableAlt_next h
  rw [altEnabled, altWrites, writeAll_append]
  exact memory_read_writeBytes_same _ _ _ _ _ (memory_wf_writeAll _ hm) hk

end Sys2Proof.Proofs.AltMode
end

section
/-!
The refusal mark and the faults (60_exceptions.md). `exec_next_cases` says once how an instruction that answers a next state
ends: it refuses its encoding, raises the fault of its operands, or completes; the statements about faults are read off it.
-/

namespace Sys2Proof.Proofs.Exceptions

open Sys2Proof.Machine Sys2Proof.Laws Sys2Proof.Proofs.StateRules Sys2Proof.Proofs.Encoding Sys2Proof.Proofs.AltMode

/-! ## The refusal mark (R203) -/

theorem prim_run_refusal (p : Prim) (s : State) : (p.run s).refusal = s.refusal := by
  obtain ⟨-, -, -, -, hrefusal, -⟩ := prim_run_frame p s
  exact hrefusal

theorem refusal_stepKeeps (m : RefusalMark) : StepKeeps fun s => s.refusal = some m where
  refuse _ h := by rw [State.refuse_refusal, h, stickyRefusal]
  accept _ _ h := h
  complete _ _ h := h
  raise _ _ h := h
  prim _ p s _ h := (prim_run_refusal p s).trans h
  inbox _ _ h := h
  setIe _ _ _ h := h
  hostReset _ h := h

/-! ## The pin programs neither fault nor deliver (R202, R204) -/

/-- What a completion or a fault builds on: `t` has the request, the `FAULT` and the deliveries of `a`. -/
def KeepsMarks (a t : State) : Prop := t.req = a.req ∧ t.fault = a.fault ∧ t.delivered = a.delivered

theorem prim_run_keepsMarks (p : Prim) {a t : State} (h : KeepsMarks a t) : KeepsMarks a (p.run t) := by
  obtain ⟨-, hreq, -, hfault, -, hdelivered, -⟩ := prim_run_frame p t
  rwa [KeepsMarks, hreq, hfault, hdelivered]

theorem runPrims_keepsMarks (ps : List Prim) (a : State) : KeepsMarks a (runPrims ps a) :=
  runPrims_keeps a.cfg ps a rfl (fun p _ _ _ => prim_run_keepsMarks p) ⟨rfl, rfl, rfl⟩

theorem runDetect_keepsMarks (a : State) : KeepsMarks a (runDetect a) :=
  runDetect_keeps a (fun p _ _ _ => prim_run_keepsMarks p) ⟨rfl, rfl, rfl⟩

/-! ## How an instruction ends (R79, R80, R202) -/

/-- The request that `a` accepted has ended in `t` without a fault: `FAULT` stands, and no fault is delivered. -/
def Completed (a t : State) : Prop :=
  t.fault = a.fault ∧ ∃ c, t.delivered = a.delivered ++ [⟨a.req, c⟩] ∧ ∀ m, c ≠ .fault m

theorem completed_of_keepsMarks {a t : State} (h : KeepsMarks a t) (res : Option Result) : Completed a (t.complete res) := by
  obtain ⟨hreq, hfault, hdelivered⟩ := h
  rw [Completed, State.complete_fault, ← hreq, ← hdelivered]
  exact ⟨hfault, complete_delivers res t⟩

/-- Operands without a fault: the program runs to its return. -/
theorem runOperation_completed {i : Instr} (hf : operandFault i = none) (a : State) : Completed a (runOperation i a) := by
  by_cases hd : i = .detect
  · rw [hd, runOperation_detect]
    exact completed_of_keepsMarks (runDetect_keepsMarks a) _
  · rw [runOperation_of_straight hf hd]
    exact completed_of_keepsMarks (runPrims_keepsMarks _ a) _

/-- A wire command byte has no operand that could fault. -/
theorem operandFault_operation (i : Instr) : operandFault i.operation = operandFault i := by
  cases i <;> rfl

/-- Operands with a fault: every call of the instruction raises it before its first event (R204). -/
theorem exec_of_operandFault {i : Instr} {m : FaultMark} (hf : operandFault i = some m) {s : State}
    (hs : s.seqState = .idle) : exec i s = .next ((s.accept (encode i).request).raiseFault m) := by
  have haccepted : i.accepted = true := by
    cases i with
    | refused _ _ => cases hf
    | _ => rfl
  rw [exec_eq_call i s haccepted, call_idle _ _ _ hs, runOperation_of_fault (by rwa [operandFault_operation])]

/-- An instruction that answers a next state refuses its encoding, raises the fault of its operands, or completes. -/
theorem exec_next_cases {i : Instr} {s t : State} (h : exec i s = .next t) :
    t = s.refuse ∨
    (∃ m, operandFault i = some m ∧ t = (s.accept (encode i).request).raiseFault m) ∨
    (operandFault i = none ∧ Completed (s.accept (encode i).request) t) := by
  have hs := idle_of_exec_next h
  cases ha : i.accepted with
  | false =>
    obtain ⟨why, p, rfl⟩ := eq_refused_of_not_accepted ha
    rw [exec_refused why p hs, ← refuse_eq] at h
    exact .inl (Host.Outcome.next.inj h).symm
  | true =>
    cases hf : operandFault i with
    | some m =>
      rw [exec_of_operandFault hf hs] at h
      exact .inr (.inl ⟨m, rfl, (Host.Outcome.next.inj h).symm⟩)
    | none =>
      rw [exec_eq_call i s ha] at h
      obtain ⟨-, rfl⟩ := call_next h
      exact .inr (.inr ⟨rfl, runOperation_completed (by rwa [operandFault_operation]) _⟩)

/-- A delivered fault is the one of the instruction's operands, and its request the instruction's own (R202). -/
theorem fault_of_delivered {i : Instr} {s t : State} {r : Req} {m : FaultMark} (h : exec i s = .next t)
    (hd : t.delivered = s.delivered ++ [⟨r, .fault m⟩]) :
    operandFault i = some m ∧ r = (encode i).request := by
  obtain rfl | ⟨m', hf, rfl⟩ | ⟨-, -, c, hc, hno⟩ := exec_next_cases h
  · simp at hd
  · obtain ⟨rfl, rfl⟩ : (encode i).request = r ∧ m' = m := by simpa using hd
    exact ⟨hf, rfl⟩
  · obtain ⟨-, rfl⟩ : (encode i).request = r ∧ c = .fault m := by simpa [hc] using hd
    exact absurd rfl (hno m)

/-! ## The statements -/

/-- Settles O42: of the shared operations only a refusal writes the mark, and it keeps one that is set. -/
theorem refusalMarkIsKept : Obligations.RefusalMarkIsKept :=
  fun _ _ m hm h => step_keeps (refusal_stepKeeps m) h hm

/-- Settles O43: without an operand that could fault, an instruction refuses its encoding or completes. -/
theorem onlyThreeOperationsFault : Obligations.OnlyThreeOperationsFault := by
  intro i s t hi h
  have hnone : operandFault i = none := by
    cases i with
    | toBcd _ | fromBcd _ | writeDatetime _ _ _ => exact hi.elim
    | _ => rfl
  obtain rfl | ⟨m, hf, -⟩ | ⟨-, hfault, c, hc, hno⟩ := exec_next_cases h
  · exact ⟨rfl, fun _ hd => .inl hd⟩
  · cases hnone.symm.trans hf
  · rw [hc, List.forall_mem_append, List.forall_mem_singleton]
    exact ⟨hfault, fun _ hd => .inl hd, .inr hno⟩

/-- Settles O44: the delivered fault is the operands', so every Idle block raises it, before any event. -/
theorem faultingOperationHasNoEvent : Obligations.FaultingOperationHasNoEvent := by
  intro i s t r m h hd
  obtain ⟨hf, rfl⟩ := fault_of_delivered h hd
  rw [exec_of_operandFault hf (idle_of_exec_next h)] at h
  obtain rfl := Host.Outcome.next.inj h
  exact ⟨⟨rfl, rfl, rfl, rfl, rfl⟩, fun _ hs => ⟨_, exec_of_operandFault hf hs, rfl, rfl⟩⟩

end Sys2Proof.Proofs.Exceptions
end

section
/-!
Reset and hazards (70_reset_and_hazards.md). One equation says what a reset does once it lands, in either state of the block;
where DIRECTION stands after an operation is read off the next states of the operations on the port.
-/

namespace Sys2Proof.Proofs.Reset

open Sys2Proof.Machine Sys2Proof.Safety Sys2Proof.Proofs.StateRules Sys2Proof.Proofs.Encoding Sys2Proof.Proofs.Bus
  Sys2Proof.Proofs.Transactions

/-! ## The steps that reset and wait (R220, R234) -/

/-- At an Idle block a reset lands at once, whatever event it was aimed at. -/
theorem step_idle_reset {s : State} {n : Nat} {rest : List HostMove} (hs : s.seqState = .idle)
    (hi : s.inbox = .reset n :: rest) : step s = .next { s with inbox := rest }.hostReset := by
  simp only [step, State.turn, hs, State.idleTurn, hi]

theorem step_reset {s : State} {n : Nat} {rest : List HostMove} (hi : s.inbox = .reset n :: rest)
    (hdue : s.seqState = .idle ∨ n ≤ s.seqPc) : step s = .next { s with inbox := rest }.hostReset := by
  cases hs : s.seqState with
  | idle => exact step_idle_reset hs hi
  | busy => exact step_busy_reset hs hi (hdue.resolve_left (by simp [hs]))

theorem step_idle_wait {s : State} (hs : s.seqState = .idle) (hi : s.inbox = []) : step s = .next s := by
  simp only [step, State.turn, hs, State.idleTurn, hi]

/-! ## The statements -/

/-- Settles O26: each next state names DIRECTION, or is a bare operation's and does not. -/
theorem directionAfterEachOperation : Obligations.DirectionAfterEachOperation := by
  intro s hs
  obtain ⟨_, -, hstatus⟩ := readStatus_idle hs
  obtain ⟨_, -, hbyte⟩ := readByte_idle hs
  exact ⟨⟨_, hstatus, rfl⟩, fun v => ⟨_, writeStatus_idle v hs, rfl⟩,
    fun mode12 pm _ hf => ⟨_, writeDatetime_idle mode12 pm hs hf, rfl⟩, ⟨_, resetChip_idle hs, rfl⟩,
    fun v => ⟨_, sendCommand_idle v hs, rfl⟩, fun v => ⟨_, writeByte_idle v hs, rfl⟩, ⟨_, hbyte, rfl⟩⟩

/-- Settles O13: the step is the reset, which rewrites internal registers only. -/
theorem resetAbandonsTheOperation : Obligations.ResetAbandonsTheOperation := by
  intro s n rest hi hdue
  exact ⟨_, step_reset hi hdue, by simp⟩

/-- Settles O15: with no move to meet, the Idle turn settles in the same state. -/
theorem idleBlockWaits : Obligations.IdleBlockWaits := fun _ => step_idle_wait

end Sys2Proof.Proofs.Reset
end
